-- ==== Sys2Proof/Word.lean ====
section
/-! DEFINITION. The widths of the core's data (00_scope.md R7, R10): bytes, 64-bit lanes, the 25-lane file, 16-bit command
words. -/

namespace Sys2Proof

/-- One byte of the state's byte view, of a message or of the output stream. -/
abbrev Byte := BitVec 8

/-- One lane: an unsigned 64-bit value (10_state.md R17). -/
abbrev Lane := BitVec 64

/-- The lane file `S[0..24]`, in row-major order (10_state.md R17). -/
abbrev Lanes := Vector Lane 25

/-- A 16-bit command word (30_encoding.md R48). -/
abbrev CommandWord := BitVec 16

/-- The all-zero lane file, which INIT leaves (41_sponge.md R73). -/
def zeroLanes : Lanes := Vector.replicate 25 0#64

end Sys2Proof
end

