-- ==== Sys2Proof/Syntax.lean ====
section
/-! DEFINITION. The commands of the opcode map (30_encoding.md R51), the words that decode to no command, and the
pseudo-instructions of the assembler (R56). -/

namespace Sys2Proof

/-- One constructor per row of opcode_table.json. Operands are the values of 30_encoding.md R50: an output length and a byte
count are natural numbers (zero-extended IMM8), a message byte is a byte. -/
inductive Instr where
  /-- `INIT L` (41_sponge.md R73). -/
  | init (outputLength : Nat)
  /-- `ABSORB m` (41_sponge.md R74). -/
  | absorb (message : Byte)
  /-- `FINAL` (41_sponge.md R75). -/
  | final
  /-- `XOF` (41_sponge.md R76). -/
  | xof
  /-- `SQUEEZE n` (41_sponge.md R77). -/
  | squeeze (count : Nat)
deriving DecidableEq, Repr

/-- Why a word is Illegal (30_encoding.md R53). The core reports the same code for all three. -/
inductive IllegalWord where
  /-- RSV, bits 11..8, is not 0. -/
  | reservedBits
  /-- OPC is 0x0 or 0x6..0xF. -/
  | reservedOpcode
  /-- FINAL or XOF with IMM8 not 0 (format N carries no operand, R49). -/
  | operandInFormatN
deriving DecidableEq, Repr

/-- The pseudo-instructions of 30_encoding.md R56. -/
inductive Pseudo where
  | initShake128
  | initShake256
  | initSha3_224
  | initSha3_256
  | initSha3_384
  | initSha3_512
  /-- `ABSORBS b0, ..., bk−1`. -/
  | absorbs (message : List Byte)
  /-- `SQUEEZEN N`. -/
  | squeezeN (count : Nat)
  /-- `HASH L, b0, ..., bk−1`. -/
  | hash (outputLength : Nat) (message : List Byte)
deriving DecidableEq, Repr

end Sys2Proof
end

