-- ==== Sys2Proof/WellFormed.lean ====
section
/-! DEFINITION. Which terms of `Instr` an encoding exists for: an operand must fit IMM8 (30_encoding.md R50, R55). -/

namespace Sys2Proof

/-- The operand fits the 8-bit field IMM8 (30_encoding.md R50). -/
def operandFits (n : Nat) : Bool := decide (n < 256)

/-- A command the assembler of 30_encoding.md R55 accepts. `INIT` with L in 100..255 is well formed: "that word encodes, and it
faults at run time". -/
def Instr.wellFormed : Instr → Bool
  | .init L => operandFits L
  | .absorb _ => true
  | .final => true
  | .xof => true
  | .squeeze n => operandFits n

end Sys2Proof
end

