-- ==== Sys2Proof/Decode.lean ====
section
/-! DEFINITION. Decode (30_encoding.md R52), total over all 65536 words, and encode (R48, R49, R51). -/

namespace Sys2Proof

/-- OPC, bits 15..12 (30_encoding.md R48). -/
def opcodeField (w : CommandWord) : BitVec 4 := w.extractLsb' 12 4

/-- RSV, bits 11..8 (30_encoding.md R48). -/
def reservedField (w : CommandWord) : BitVec 4 := w.extractLsb' 8 4

/-- IMM8, bits 7..0 (30_encoding.md R48). -/
def immediateField (w : CommandWord) : Byte := w.extractLsb' 0 8

/-- A command of format N: IMM8 must be 0 (30_encoding.md R49). -/
def decodeFormatN (i : Instr) (imm : Byte) : Except IllegalWord Instr :=
  if imm = 0#8 then .ok i else .error .operandInFormatN

/-- `Decode(w)` (30_encoding.md R52), the checks in the order the rule writes them. -/
def decode (w : CommandWord) : Except IllegalWord Instr :=
  if reservedField w ≠ 0#4 then .error .reservedBits
  else if opcodeField w = 0x1#4 then .ok (.init (immediateField w).toNat)
  else if opcodeField w = 0x2#4 then .ok (.absorb (immediateField w))
  else if opcodeField w = 0x3#4 then decodeFormatN .final (immediateField w)
  else if opcodeField w = 0x4#4 then decodeFormatN .xof (immediateField w)
  else if opcodeField w = 0x5#4 then .ok (.squeeze (immediateField w).toNat)
  else .error .reservedOpcode

/-- `OPC ‖ 0000 ‖ IMM8` (30_encoding.md R49). -/
def commandWord (opc : BitVec 4) (imm : Byte) : CommandWord := opc ++ 0#4 ++ imm

/-- The word of a well-formed command (30_encoding.md R51, R55). -/
def encode : Instr → CommandWord
  | .init L => commandWord 0x1#4 (BitVec.ofNat 8 L)
  | .absorb m => commandWord 0x2#4 m
  | .final => commandWord 0x3#4 0#8
  | .xof => commandWord 0x4#4 0#8
  | .squeeze n => commandWord 0x5#4 (BitVec.ofNat 8 n)

/-- The command word whose lowest `nbits` bits are those of `w`, every bit above them 0. -/
def tableWord (nbits w : Nat) : CommandWord := BitVec.ofNat 16 (w % 2 ^ nbits)

/-- The instruction the decoder reads from the word `w` of a row of opcode_table.json. Every command is exactly 16 bits
(30_encoding.md R54), so a longer row has no instruction. -/
def decodeTableWord (nbits w : Nat) : Option Instr :=
  if nbits ≤ 16 then (decode (tableWord nbits w)).toOption else none

end Sys2Proof
end

