-- ==== Sys2Proof/Config.lean ====
section
/-! DEFINITION. What an implementation of KSC fixes and the spec leaves open: the timing parameters (00_scope.md R9), which
have no body, and the value the model names for the lanes at reset. -/

namespace Sys2Proof.Config

/-- A positive rational number `(num + 1) / (den + 1)`, the form of ROUNDS_PER_CYCLE (00_scope.md R9). -/
structure PositiveRatio where
  num : Nat
  den : Nat
deriving DecidableEq, Repr, Inhabited

/-- ROUNDS_PER_CYCLE (00_scope.md R9): how many rounds the datapath completes per clock.
No rule of the machine reads it (70_reset_and_hazards.md R108). Free: no value can be proved of it. Log entry 20. -/
opaque roundsPerCycle : PositiveRatio

/-- CMD_LATENCY (00_scope.md R9): the cycles from the acceptance of a command to its completion, with a host that takes every
byte as it is offered; a slower host adds the cycles it lets pass (70_reset_and_hazards.md R108).
It depends on the word and on what STATUS shows at acceptance: PHASE, POS, RATE and OUTLEN decide whether the command faults,
whether a permutation runs and how many bytes there are.
Only the port level waits for it. Free: no value can be proved of it. Log entries 8, 20. -/
opaque cmdLatency (w : CommandWord) (status : BitVec 32) : Nat

/-- DESIGN CHOICE (unsafe, log entry 2): the value of each lane after reset. The spec says "unspecified" (10_state.md R33) and
that no observation can depend on it; `Obligations.LanesBeforeInitUnobservable` states that. -/
def resetLane : Lane := 0#64

end Sys2Proof.Config
end

