-- ==== Sys2Proof/Machine/State.lean ====
section
/-! DEFINITION. The state of the core (10_state.md), the reasons a step can stop, and the state after reset (R33). -/

namespace Sys2Proof.Machine

/-- PHASE, the lifecycle state of the context (10_state.md R20). -/
inductive Phase where
  /-- 0: no context exists. -/
  | uninit
  /-- 1: absorbing. -/
  | initialized
  /-- 2: the digest was emitted. -/
  | finalized
  /-- 3: SQUEEZE is legal and repeatable. -/
  | squeezeReady
deriving DecidableEq, Repr

/-- The misuse faults of the core (60_exceptions.md R88). Raising one leads to a next state (R91), not to a stop of the model. -/
inductive Misuse where
  | badCommand
  | notInitialized
  | absorbAfterFinalize
  | doubleFinalize
  | squeezeBeforeXof
  | badOutlen
deriving DecidableEq, Repr

/-- One thing the host does at the interface (10_state.md R32). -/
inductive HostInput where
  /-- The host offers a 16-bit word on the command channel. -/
  | command (w : CommandWord)
  /-- The host asserts `rst` for at least one clock, between two commands. -/
  | reset
deriving DecidableEq, Repr

/-- Where a step of the model stops for good. -/
inductive Fault where
  /-- A byte index outside the state byte space 0..199 (20_memory.md R34, R38), raised by `memRead` and `memWrite`.
  No state that meets the invariants of 10_state.md R25 raises it (20_memory.md R39). Safe. Log entry 5. -/
  | noSuchStateByte (index : Nat)
deriving DecidableEq, Repr

/-- What the model has no move for. -/
inductive Refusal where
  /-- An instruction whose arm of `exec` has no meaning yet. Raised by `exec` only. Safe. -/
  | notModelled (mnemonic : String)
  /-- The host changed `cmd_data` while a word was offered and not yet accepted (10_state.md R32; 93_implementation_defined.md
  U13: "refuse"). Raised by the port level's `tick` only. Safe. Log entry 10. -/
  | offeredWordChanged
deriving DecidableEq, Repr

/-- The architectural state, with the host's side of the two channels. -/
structure State where
  /-- The lane file `S[0..24]` (10_state.md R17). Its byte view is computed (20_memory.md R34). -/
  lanes : Lanes
  /-- POS (10_state.md R19). -/
  pos : BitVec 8
  /-- RATE (10_state.md R19). -/
  rate : BitVec 8
  /-- OUTLEN (10_state.md R19). -/
  outlen : BitVec 7
  /-- PHASE (10_state.md R20). -/
  phase : Phase
  /-- ERR, sticky (10_state.md R21). -/
  err : Bool
  /-- ERRCODE (10_state.md R21). -/
  errcode : BitVec 4
  /-- BUSY (10_state.md R22). False in every state a transaction-level run reaches; the port level sets it. -/
  busy : Bool
  /-- What the host has still to present, first first (10_state.md R16, R32). Log entry 1. -/
  inputs : List HostInput
  /-- The index of the next command in the host's sequence (10_state.md R16). Log entry 14. -/
  index : Nat
  /-- The output stream: every byte transferred on `out_data`, in transfer order (10_state.md R31). -/
  out : List Byte
deriving DecidableEq, Repr

/-- The state right after reset (10_state.md R33), with the host still to present anything. The lanes, which the spec leaves
unspecified, hold the value log entry 2 names. -/
def State.reset : State where
  lanes := Vector.replicate 25 Config.resetLane
  pos := 0#8
  rate := 0#8
  outlen := 0#7
  phase := .uninit
  err := false
  errcode := 0#4
  busy := false
  inputs := []
  index := 0
  out := []

end Sys2Proof.Machine
end

