-- ==== Sys2Proof/Machine/ByteView.lean ====
section
/-! DEFINITION. The byte view of the lane file (20_memory.md R34, R35): little-endian, fixed. The operations on whole lane files
are irreducible, so that no unifier evaluates 25 lanes or 200 bytes while it compares two states; Laws/ByteView.lean says what
they do. -/

namespace Sys2Proof.Machine

/-- The lane that holds byte `b` of the byte view: `b div 8` (20_memory.md R34). -/
def laneOfByte (b : Fin 200) : Fin 25 := ⟨b.val / 8, by omega⟩

/-- The lowest bit, in its lane, of byte `b` of the byte view: `8 × (b mod 8)` (20_memory.md R34). -/
def bitOfByte (b : Fin 200) : Nat := 8 * (b.val % 8)

/-- `v` with the 8 bits from bit `k` replaced by `x`, the other bits kept. -/
def replaceByte (v : Lane) (k : Nat) (x : Byte) : Lane :=
  (v &&& ~~~((0xFF#64) <<< k)) ||| (x.setWidth 64 <<< k)

/-- Byte `b` of the byte view (20_memory.md R34). -/
def byteAt (A : Lanes) (b : Fin 200) : Byte := (A[laneOfByte b]).extractLsb' (bitOfByte b) 8

/-- The lane file with byte `b` of the byte view replaced, "the other 1592 bits unchanged" (20_memory.md R34). -/
@[irreducible] def setByteAt (A : Lanes) (b : Fin 200) (x : Byte) : Lanes :=
  A.set (laneOfByte b) (replaceByte A[laneOfByte b] (bitOfByte b) x)

/-- `ByteOf(S, ·)`: the whole byte view (20_memory.md R35). -/
@[irreducible] def bytesOfLanes (A : Lanes) : Vector Byte 200 := Vector.ofFn fun b => byteAt A b

/-- `LaneOf(bytes, i)`: eight bytes, the first least significant (20_memory.md R35). -/
def laneOf (bytes : Vector Byte 200) (i : Fin 25) : Lane :=
  bytes[8 * i.val + 7] ++ bytes[8 * i.val + 6] ++ bytes[8 * i.val + 5] ++ bytes[8 * i.val + 4] ++
    bytes[8 * i.val + 3] ++ bytes[8 * i.val + 2] ++ bytes[8 * i.val + 1] ++ bytes[8 * i.val]

/-- `LaneOf(bytes, ·)`: the whole lane view (20_memory.md R35). -/
@[irreducible] def lanesOfBytes (bytes : Vector Byte 200) : Lanes := Vector.ofFn fun i => laneOf bytes i

end Sys2Proof.Machine
end

