-- ==== Sys2Proof/Machine/Flags.lean ====
section
/-! DEFINITION. The encodings of PHASE and ERRCODE, the STATUS word (10_state.md R20, R21, R23), and the phase and operand
checks of the commands (60_exceptions.md R88 to R90). The core has no condition codes (10_state.md R24). -/

namespace Sys2Proof.Machine

/-- The 2-bit encoding of PHASE (10_state.md R20). -/
def phaseCode : Phase → BitVec 2
  | .uninit => 0#2
  | .initialized => 1#2
  | .finalized => 2#2
  | .squeezeReady => 3#2

/-- The 4-bit ERRCODE of a misuse (60_exceptions.md R88). -/
def misuseCode : Misuse → BitVec 4
  | .badCommand => 0x1#4
  | .notInitialized => 0x2#4
  | .absorbAfterFinalize => 0x3#4
  | .doubleFinalize => 0x4#4
  | .squeezeBeforeXof => 0x5#4
  | .badOutlen => 0x6#4

/-- `STATUS = 0 ‖ OUTLEN ‖ RATE ‖ POS ‖ ERRCODE ‖ BUSY ‖ ERR ‖ PHASE` (10_state.md R23). -/
def statusWord (s : State) : BitVec 32 :=
  0#1 ++ s.outlen ++ s.rate ++ s.pos ++ s.errcode ++ BitVec.ofBool s.busy ++ BitVec.ofBool s.err ++ phaseCode s.phase

/-- INIT's only check: BAD_OUTLEN when L ≥ 100; no phase condition (41_sponge.md R73). -/
def initMisuse (L : Nat) : Option Misuse := if 100 ≤ L then some .badOutlen else none

/-- ABSORB's phase check (41_sponge.md R74). -/
def absorbMisuse : Phase → Option Misuse
  | .uninit => some .notInitialized
  | .initialized => none
  | .finalized => some .absorbAfterFinalize
  | .squeezeReady => some .absorbAfterFinalize

/-- FINAL's phase check (41_sponge.md R75). -/
def finalMisuse : Phase → Option Misuse
  | .uninit => some .notInitialized
  | .initialized => none
  | .finalized => some .doubleFinalize
  | .squeezeReady => some .doubleFinalize

/-- XOF's phase check (41_sponge.md R76). -/
def xofMisuse : Phase → Option Misuse
  | .uninit => some .notInitialized
  | .initialized => none
  | .finalized => some .doubleFinalize
  | .squeezeReady => some .doubleFinalize

/-- SQUEEZE's phase check (41_sponge.md R77). -/
def squeezeMisuse : Phase → Option Misuse
  | .uninit => some .notInitialized
  | .initialized => some .squeezeBeforeXof
  | .finalized => some .squeezeBeforeXof
  | .squeezeReady => none

end Sys2Proof.Machine
end

