-- ==== Sys2Proof/Machine/Operands.lean ====
section
/-! DEFINITION. Operands and addresses of the commands (30_encoding.md R50; 41_sponge.md R84, R85): the rate an output length
selects, the padding bytes and where they go. -/

namespace Sys2Proof.Machine

/-- `RATE = 200 − 2 × L`, for L in 0..99 (00_scope.md R8). -/
def rateOf (L : Nat) : BitVec 8 := BitVec.ofNat 8 (200 - 2 * L)

/-- OUTLEN, the 7-bit register, for L in 0..99 (10_state.md R19). -/
def outlenOf (L : Nat) : BitVec 7 := BitVec.ofNat 7 L

/-- The byte index POS names: the one addressing mode (41_sponge.md R85). -/
def posIndex (s : State) : Nat := s.pos.toNat

/-- The byte index RATE − 1, where the end-of-block bit goes (41_sponge.md R75, R76). The subtraction is the register's, so in
a state with RATE = 0, which no run reaches, the index names no byte (log entry 18). -/
def lastRateIndex (s : State) : Nat := (s.rate - 1#8).toNat

/-- The SHA-3 domain suffix (41_sponge.md R75). -/
def finalSuffix : Byte := 0x06#8

/-- The SHAKE domain suffix (41_sponge.md R76). -/
def xofSuffix : Byte := 0x1F#8

/-- The end-of-block padding bit (41_sponge.md R75, R76). -/
def endOfBlock : Byte := 0x80#8

end Sys2Proof.Machine
end

