-- ==== Sys2Proof/Machine/Permutation.lean ====
section
/-! DEFINITION. The Keccak-f[1600] permutation datapath (40_permutation.md). The tables are the spec's R58, R60, R61 and R69,
which the spec marks as general knowledge, cross-checked on its writing host (log entry 11). -/

namespace Sys2Proof.Machine

/-- `rotl64(v, n)`: rotate left by `n mod 64` (40_permutation.md R57). -/
def rotl64 (v : Lane) (n : Nat) : Lane :=
  if n % 64 = 0 then v else (v <<< (n % 64)) ||| (v >>> (64 - n % 64))

/-- The round constants `RC[0..23]` (40_permutation.md R58), each as its upper and its lower half, two to a line. -/
def roundConstants : Vector Lane 24 := #v[
  0x00000000#32 ++ 0x00000001#32, 0x00000000#32 ++ 0x00008082#32,
  0x80000000#32 ++ 0x0000808A#32, 0x80000000#32 ++ 0x80008000#32,
  0x00000000#32 ++ 0x0000808B#32, 0x00000000#32 ++ 0x80000001#32,
  0x80000000#32 ++ 0x80008081#32, 0x80000000#32 ++ 0x00008009#32,
  0x00000000#32 ++ 0x0000008A#32, 0x00000000#32 ++ 0x00000088#32,
  0x00000000#32 ++ 0x80008009#32, 0x00000000#32 ++ 0x8000000A#32,
  0x00000000#32 ++ 0x8000808B#32, 0x80000000#32 ++ 0x0000008B#32,
  0x80000000#32 ++ 0x00008089#32, 0x80000000#32 ++ 0x00008003#32,
  0x80000000#32 ++ 0x00008002#32, 0x80000000#32 ++ 0x00000080#32,
  0x00000000#32 ++ 0x0000800A#32, 0x80000000#32 ++ 0x8000000A#32,
  0x80000000#32 ++ 0x80008081#32, 0x80000000#32 ++ 0x00008080#32,
  0x00000000#32 ++ 0x80000001#32, 0x80000000#32 ++ 0x80008008#32]

/-- The rho offsets `RHO[0..24]` by lane index (40_permutation.md R60). -/
def rhoOffsets : Vector Nat 25 := #v[
  0, 1, 62, 28, 27, 36, 44, 6, 55, 20, 3, 10, 43, 25, 39, 41, 45, 15, 21, 8, 18, 2, 61, 56, 14]

/-- `PISRC[i]`: the source lane of destination lane `i` (40_permutation.md R61). -/
def piSource : Vector (Fin 25) 25 := #v[
  0, 6, 12, 18, 24, 3, 9, 10, 16, 22, 1, 7, 13, 19, 20, 4, 5, 11, 17, 23, 2, 8, 14, 15, 21]

/-- `ROTC[0..23]`: the offsets in the order Pi's cycle visits the lanes (40_permutation.md R69). -/
def rotationWalk : Vector Nat 24 := #v[
  1, 3, 6, 10, 15, 21, 28, 36, 45, 55, 2, 14, 27, 41, 56, 8, 25, 43, 62, 18, 39, 61, 20, 44]

/-- `PILN[0..23]`: the 24 target indices of the walk (40_permutation.md R69). -/
def laneWalk : Vector (Fin 25) 24 := #v[
  10, 7, 11, 17, 18, 3, 5, 16, 8, 21, 24, 4, 15, 23, 19, 13, 12, 2, 20, 14, 22, 9, 6, 1]

/-- The lane index `x + 5 × y` (10_state.md R17). -/
def laneIndex (x y : Fin 5) : Fin 25 := ⟨x.val + 5 * y.val, by omega⟩

/-- The column `x` of a lane index. -/
def columnOf (i : Fin 25) : Fin 5 := ⟨i.val % 5, by omega⟩

/-- The row `y` of a lane index. -/
def rowOf (i : Fin 25) : Fin 5 := ⟨i.val / 5, by omega⟩

/-- `Lane(x, y)` (00_scope.md R11). -/
def laneAt (A : Lanes) (x y : Fin 5) : Lane := A[laneIndex x y]

/-- The column parity `C[x]` (40_permutation.md R62). -/
def columnParity (A : Lanes) (x : Fin 5) : Lane :=
  laneAt A x 0 ^^^ laneAt A x 1 ^^^ laneAt A x 2 ^^^ laneAt A x 3 ^^^ laneAt A x 4

/-- The theta effect `D[x] = C[x+4 mod 5] ^ rotl64(C[x+1 mod 5], 1)` (40_permutation.md R62). -/
def thetaEffect (A : Lanes) (x : Fin 5) : Lane :=
  columnParity A (x + 4) ^^^ rotl64 (columnParity A (x + 1)) 1

/-- `Theta(A)` (40_permutation.md R62). -/
def theta (A : Lanes) : Lanes := Vector.ofFn fun i => A[i] ^^^ thetaEffect A (columnOf i)

/-- `Rho(A)` (40_permutation.md R63). -/
def rho (A : Lanes) : Lanes := Vector.ofFn fun i => rotl64 A[i] rhoOffsets[i]

/-- `Pi(A)` (40_permutation.md R64). -/
def pi (A : Lanes) : Lanes := Vector.ofFn fun i => A[piSource[i]]

/-- One lane of `Chi(A)`, from the pre-step row (40_permutation.md R65). -/
def chiLane (A : Lanes) (x y : Fin 5) : Lane :=
  laneAt A x y ^^^ (~~~(laneAt A (x + 1) y) &&& laneAt A (x + 2) y)

/-- `Chi(A)` (40_permutation.md R65). -/
def chi (A : Lanes) : Lanes := Vector.ofFn fun i => chiLane A (columnOf i) (rowOf i)

/-- `Iota(A, ir)` (40_permutation.md R66). -/
def iota (A : Lanes) (ir : Fin 24) : Lanes := A.set 0 (A[0] ^^^ roundConstants[ir])

/-- `Round(A, ir)`: the five steps in order (40_permutation.md R67). Irreducible, like `keccakF`. -/
@[irreducible] def keccakRound (A : Lanes) (ir : Fin 24) : Lanes := iota (chi (pi (rho (theta A)))) ir

/-- The rounds whose indices are listed, in that order, each applied to the state the last one left (40_permutation.md R71). -/
def keccakRounds (rounds : List (Fin 24)) (A : Lanes) : Lanes := rounds.foldl keccakRound A

/-- `KeccakF(S)`: rounds 0..23 in increasing order (40_permutation.md R68). Irreducible, so that no unifier runs 24 rounds while
it compares two states; `keccakF_eq` of Laws/Permutation.lean opens it. -/
@[irreducible] def keccakF (A : Lanes) : Lanes := keccakRounds (List.finRange 24) A

/-- One step of the fused walk: the lane array and the carried lane `t` (40_permutation.md R70). -/
def fusedStep (At : Lanes × Lane) (k : Fin 24) : Lanes × Lane :=
  (At.1.set laneWalk[k] (rotl64 At.2 rotationWalk[k]), At.1[laneWalk[k]])

/-- `RhoPiFused(A)` (40_permutation.md R70): the reference's one-pass form of Rho followed by Pi. -/
def rhoPiFused (A : Lanes) : Lanes := ((List.finRange 24).foldl fusedStep (A, A[1])).1

/-- One step of the LFSR x^8 + x^6 + x^5 + x^4 + 1 (40_permutation.md R59), `R` at 9 bits after the shift. -/
def lfsrStep (R : Byte) : Byte :=
  if R.getLsbD 7 then (R <<< 1) ^^^ 0x71#8 else R <<< 1

/-- The LFSR after `n` steps from R = 1. -/
def lfsr : Nat → Byte
  | 0 => 1#8
  | n + 1 => lfsrStep (lfsr n)

/-- `rc(t)` (40_permutation.md R59). -/
def rcBit (t : Nat) : Bool := if t % 255 = 0 then true else (lfsr (t % 255)).getLsbD 0

/-- The bit `rc(j + 7 × ir)` at position `2^j − 1` (40_permutation.md R59). -/
def rcTerm (ir j : Nat) : Lane := if rcBit (j + 7 * ir) then 1#64 <<< (2 ^ j - 1) else 0#64

/-- `RC[ir]` as R59 regenerates it. -/
def generatedRoundConstant (ir : Nat) : Lane :=
  rcTerm ir 0 ||| rcTerm ir 1 ||| rcTerm ir 2 ||| rcTerm ir 3 ||| rcTerm ir 4 ||| rcTerm ir 5 ||| rcTerm ir 6

end Sys2Proof.Machine
end

