-- ==== Sys2Proof/Machine/Ops.lean ====
section
/-! DEFINITION. The shared operations of the commands: state byte access (20_memory.md R34), output (10_state.md R31), the
permutation, the post-increment of POS, the fault entry (60_exceptions.md R91) and reset (70_reset_and_hazards.md R101). -/

namespace Sys2Proof.Machine

/-- `MemRead(b, 1)` (20_memory.md R34). -/
def memRead (s : State) (b : Nat) : Except Fault Byte :=
  if h : b < 200 then .ok (byteAt s.lanes ⟨b, h⟩) else .error (.noSuchStateByte b)

/-- `MemWrite(b, 1, v)` (20_memory.md R34). -/
def memWrite (s : State) (b : Nat) (v : Byte) : Except Fault State :=
  if h : b < 200 then .ok { s with lanes := setByteAt s.lanes ⟨b, h⟩ v } else .error (.noSuchStateByte b)

/-- `MemWrite(b, 1, MemRead(b, 1) ^ v)`: the store form of every command that writes a state byte (41_sponge.md R85). -/
def xorByte (s : State) (b : Nat) (v : Byte) : Except Fault State :=
  match memRead s b with
  | .ok old => memWrite s b (old ^^^ v)
  | .error f => .error f

/-- `Emit(v)` (10_state.md R31). -/
def emit (s : State) (v : Byte) : State := { s with out := s.out ++ [v] }

/-- `S <- KeccakF(S)` (40_permutation.md R68). -/
def permute (s : State) : State := { s with lanes := keccakF s.lanes }

/-- `POS <- v`. -/
def setPos (s : State) (v : BitVec 8) : State := { s with pos := v }

/-- `PHASE <- v`. -/
def setPhase (s : State) (v : Phase) : State := { s with phase := v }

/-- `POS <- POS + 1; if POS == RATE: S <- KeccakF(S); POS <- 0` (41_sponge.md R74, R77): the post-increment, with the eager
permutation at the rate boundary (90_conflicts.md C2). -/
def advancePos (s : State) : State :=
  if s.pos + 1#8 = s.rate then setPos (permute s) 0#8 else setPos s (s.pos + 1#8)

/-- `Emit(MemRead(k, 1))` for `n` indices from `k` up (41_sponge.md R75). -/
def emitBytesFrom (k : Nat) : Nat → State → Except Fault State
  | 0, s => .ok s
  | n + 1, s =>
    match memRead s k with
    | .ok b => emitBytesFrom (k + 1) n (emit s b)
    | .error f => .error f

/-- The loop body of SQUEEZE (41_sponge.md R77): emit the byte at POS, then advance POS. -/
def squeezeByte (s : State) : Except Fault State :=
  match memRead s (posIndex s) with
  | .ok b => .ok (advancePos (emit s b))
  | .error f => .error f

/-- The loop of SQUEEZE, `n` times (41_sponge.md R77). -/
def squeezeBytes : Nat → State → Except Fault State
  | 0, s => .ok s
  | n + 1, s =>
    match squeezeByte s with
    | .ok t => squeezeBytes n t
    | .error f => .error f

/-- The padding both finalize commands share: the domain suffix at POS, then 0x80 at RATE − 1 of the state that leaves
(41_sponge.md R75, R76). -/
def pad (suffix : Byte) (s : State) : Except Fault State :=
  match xorByte s (posIndex s) suffix with
  | .ok t => xorByte t (lastRateIndex t) endOfBlock
  | .error f => .error f

/-- `raise Fault(code)` (60_exceptions.md R91): ERR and ERRCODE when ERR = 0, and nothing else. -/
def raise (m : Misuse) (s : State) : State :=
  if s.err then s else { s with err := true, errcode := misuseCode m }

/-- The outcome of an effect that has passed its checks. -/
def outcomeOf : Except Fault State → Host.Outcome State Fault Refusal
  | .ok t => .next t
  | .error f => .fault f

/-- A command's misuse check before its first effect (60_exceptions.md R91): a misuse takes the fault entry, which is a next
state, and has no effect of the command's. -/
def checked (misuse : Option Misuse) (s : State) (effect : Except Fault State) : Host.Outcome State Fault Refusal :=
  match misuse with
  | some m => .next (raise m s)
  | none => outcomeOf effect

/-- Reset (70_reset_and_hazards.md R101): every register at its reset value (10_state.md R33). What the host has already taken
or has still to present is the host's and stays (log entries 3, 14). -/
def applyReset (s : State) : State :=
  { State.reset with inputs := s.inputs, index := s.index, out := s.out }

/-- The index of the host's next command advances by exactly 1 (10_state.md R16). -/
def countCommand (s : State) : State := { s with index := s.index + 1 }

end Sys2Proof.Machine
end

