-- ==== Sys2Proof/Machine/Sponge.lean ====
section
/-! DEFINITION. The meanings of the five commands (41_sponge.md R73 to R77), as run by the step function with ERR = 0 (R72). -/

namespace Sys2Proof.Machine

/-- What INIT leaves for an L that passes its check (41_sponge.md R73). -/
def initContext (L : Nat) (s : State) : State :=
  { s with lanes := zeroLanes, outlen := outlenOf L, rate := rateOf L, pos := 0#8, phase := .initialized }

/-- `INIT L` (41_sponge.md R73). -/
def execInit (L : Nat) (s : State) : Host.Outcome State Fault Refusal :=
  checked (initMisuse L) s (.ok (initContext L s))

/-- ABSORB's effect (41_sponge.md R74). -/
def absorbByte (m : Byte) (s : State) : Except Fault State :=
  match xorByte s (posIndex s) m with
  | .ok t => .ok (advancePos t)
  | .error f => .error f

/-- `ABSORB m` (41_sponge.md R74). -/
def execAbsorb (m : Byte) (s : State) : Host.Outcome State Fault Refusal :=
  checked (absorbMisuse s.phase) s (absorbByte m s)

/-- FINAL's effect: pad, permute, emit the first OUTLEN bytes, consume the context (41_sponge.md R75). -/
def finalDigest (s : State) : Except Fault State :=
  match pad finalSuffix s with
  | .ok t =>
    match emitBytesFrom 0 s.outlen.toNat (permute t) with
    | .ok u => .ok (setPhase u .finalized)
    | .error f => .error f
  | .error f => .error f

/-- `FINAL` (41_sponge.md R75). -/
def execFinal (s : State) : Host.Outcome State Fault Refusal :=
  checked (finalMisuse s.phase) s (finalDigest s)

/-- XOF's effect: pad, permute, squeeze mode at position 0 (41_sponge.md R76). -/
def xofFinalize (s : State) : Except Fault State :=
  match pad xofSuffix s with
  | .ok t => .ok (setPhase (setPos (permute t) 0#8) .squeezeReady)
  | .error f => .error f

/-- `XOF` (41_sponge.md R76). -/
def execXof (s : State) : Host.Outcome State Fault Refusal :=
  checked (xofMisuse s.phase) s (xofFinalize s)

/-- `SQUEEZE n` (41_sponge.md R77). -/
def execSqueeze (n : Nat) (s : State) : Host.Outcome State Fault Refusal :=
  checked (squeezeMisuse s.phase) s (squeezeBytes n s)

end Sys2Proof.Machine
end

