-- ==== Sys2Proof/Machine/Dispatch.lean ====
section
/-! DEFINITION. One arm per command of the opcode map (30_encoding.md R51; 41_sponge.md R72). -/

namespace Sys2Proof.Machine

def exec (i : Instr) (s : State) : Host.Outcome State Fault Refusal :=
  match i with
  | .init L => Sys2Proof.Machine.execInit L s
  | .absorb m => Sys2Proof.Machine.execAbsorb m s
  | .final => Sys2Proof.Machine.execFinal s
  | .xof => Sys2Proof.Machine.execXof s
  | .squeeze n => Sys2Proof.Machine.execSqueeze n s

end Sys2Proof.Machine
end

