-- ==== Sys2Proof/Machine/Accept.lean ====
section
/-! DEFINITION. One accepted command word (41_sponge.md R72), and one input of the host. -/

namespace Sys2Proof.Machine

/-- `Step(w)` (41_sponge.md R72): a locked core discards the word (60_exceptions.md R92); an Illegal word takes the fault entry
with BAD_COMMAND (30_encoding.md R52); any other word runs its command. The host's command index advances by 1 in every case
(10_state.md R16). -/
def accept (w : CommandWord) (s : State) : Host.Outcome State Fault Refusal :=
  if s.err then .next (countCommand s)
  else
    match decode w with
    | .ok i => exec i (countCommand s)
    | .error _ => .next (raise .badCommand (countCommand s))

/-- The accepted words of a run, in order (41_sponge.md R83), stopping at the first stop. -/
def acceptAll : List CommandWord → State → Host.Outcome State Fault Refusal
  | [], s => .next s
  | w :: ws, s =>
    match accept w s with
    | .next t => acceptAll ws t
    | .fault f => .fault f
    | .refused r => .refused r

/-- What one input of the host does (10_state.md R32): a command word is accepted, a reset loads the reset values
(70_reset_and_hazards.md R101). -/
def takeInput (h : HostInput) (s : State) : Host.Outcome State Fault Refusal :=
  match h with
  | .command w => accept w s
  | .reset => .next (applyReset s)

/-- `s` with the host about to present the word `w` next. -/
def offerWord (w : CommandWord) (s : State) : State := { s with inputs := .command w :: s.inputs }

end Sys2Proof.Machine
end

