-- ==== Sys2Proof/Machine/Step.lean ====
section
/-! DEFINITION. One step of the transaction level (10_state.md R15): the core takes the host's next input; with none offered it
idles and holds all state (60_exceptions.md R100). -/

namespace Sys2Proof.Machine

/-- One step: the host's next input, or idle. -/
def step (s : State) : Host.Outcome State Fault Refusal :=
  match s.inputs with
  | [] => .next s
  | h :: rest => takeInput h { s with inputs := rest }

/-- `s` with the word `w` of an opcode-table row as the next word the host offers: the core accepts it in the very next step.
Log entry 1. -/
def State.withFetchWord (s : State) (nbits w : Nat) : State := offerWord (tableWord nbits w) s

end Sys2Proof.Machine
end

