-- ==== Sys2Proof/Machine/Assembler.lean ====
section
/-! DEFINITION. The assembler syntax (30_encoding.md R55) and the pseudo-instructions (R56). Text is a list of characters, so
that the kernel can evaluate it. Log entry 17. -/

namespace Sys2Proof.Machine

/-- The expansion of a pseudo-instruction (30_encoding.md R56). -/
def expand : Pseudo → List Instr
  | .initShake128 => [.init 16]
  | .initShake256 => [.init 32]
  | .initSha3_224 => [.init 28]
  | .initSha3_256 => [.init 32]
  | .initSha3_384 => [.init 48]
  | .initSha3_512 => [.init 64]
  | .absorbs message => message.map .absorb
  | .squeezeN N => List.replicate (N / 255) (.squeeze 255) ++ (if N % 255 = 0 then [] else [.squeeze (N % 255)])
  | .hash L message => .init L :: (message.map .absorb ++ [.final])

/-- What the assembler refuses (30_encoding.md R55). -/
inductive AssemblerError where
  | unknownMnemonic
  | missingOperand
  | unexpectedOperand
  | notANumber
  | operandOutOfRange
deriving DecidableEq, Repr

/-- The text of a line before its comment: "from `;` to the end of the line is a comment". -/
def stripComment (line : List Char) : List Char := line.takeWhile (· != ';')

/-- White space, and the comma of a pseudo-instruction's operand list, separate words. -/
def isSeparator (c : Char) : Bool := c == ' ' || c == '\t' || c == '\r' || c == ','

/-- The words of a line: the word read so far is held reversed in `word`. -/
def splitWords (word : List Char) : List Char → List (List Char)
  | [] => if word = [] then [] else [word.reverse]
  | c :: cs =>
    if isSeparator c then (if word = [] then splitWords [] cs else word.reverse :: splitWords [] cs)
    else splitWords (c :: word) cs

/-- The value of a digit in base 10 or 16. -/
def digitValue (base : Nat) (c : Char) : Option Nat :=
  let n := c.toNat
  let v := if 48 ≤ n ∧ n ≤ 57 then n - 48
    else if 97 ≤ n ∧ n ≤ 102 then n - 87
    else if 65 ≤ n ∧ n ≤ 70 then n - 55 else base
  if v < base then some v else none

/-- The digits of a number, most significant first, after the value read so far. -/
def readDigits (base acc : Nat) : List Char → Option Nat
  | [] => some acc
  | c :: cs =>
    match digitValue base c with
    | some d => readDigits base (base * acc + d) cs
    | none => none

/-- "A decimal number or a `0x` hexadecimal number" (30_encoding.md R55). -/
def readNumber : List Char → Option Nat
  | '0' :: 'x' :: c :: cs => readDigits 16 0 (c :: cs)
  | c :: cs => readDigits 10 0 (c :: cs)
  | [] => none

/-- A number of any size. -/
def readCount (text : List Char) : Except AssemblerError Nat :=
  match readNumber text with
  | some n => .ok n
  | none => .error .notANumber

/-- An operand: "its value must be 0..255" (30_encoding.md R55). -/
def readOperand (text : List Char) : Except AssemblerError Nat :=
  match readCount text with
  | .ok n => if operandFits n then .ok n else .error .operandOutOfRange
  | .error e => .error e

/-- A list of byte operands. -/
def readBytes : List (List Char) → Except AssemblerError (List Byte)
  | [] => .ok []
  | t :: ts =>
    match readOperand t with
    | .error e => .error e
    | .ok n =>
      match readBytes ts with
      | .ok bs => .ok (BitVec.ofNat 8 n :: bs)
      | .error e => .error e

/-- A mnemonic that takes no operand. -/
def withoutOperand (is : List Instr) : List (List Char) → Except AssemblerError (List Instr)
  | [] => .ok is
  | _ :: _ => .error .unexpectedOperand

/-- A mnemonic that takes exactly one operand. -/
def withOneOperand (read : List Char → Except AssemblerError Nat) (make : Nat → List Instr) :
    List (List Char) → Except AssemblerError (List Instr)
  | [] => .error .missingOperand
  | [t] => match read t with
    | .ok n => .ok (make n)
    | .error e => .error e
  | _ :: _ :: _ => .error .unexpectedOperand

/-- A mnemonic that takes any number of byte operands. -/
def withBytes (make : List Byte → List Instr) (operands : List (List Char)) : Except AssemblerError (List Instr) :=
  match readBytes operands with
  | .ok bs => .ok (make bs)
  | .error e => .error e

/-- `HASH L, b0, ..., bk−1`. -/
def withLengthAndBytes : List (List Char) → Except AssemblerError (List Instr)
  | [] => .error .missingOperand
  | t :: ts => match readOperand t with
    | .ok L => withBytes (fun bs => expand (.hash L bs)) ts
    | .error e => .error e

/-- A mnemonic and its operands (30_encoding.md R55, R56). DESIGN CHOICE: only the forms those two rules define are assembled. The
shorthands `ABSORBS 0x00 × 136` and `ABSORB b for b = 0..199` of 95_test_vectors.md P3 and P6 are refused. Log entry 17. -/
def assembleWords (mnemonic : String) (operands : List (List Char)) : Except AssemblerError (List Instr) :=
  if mnemonic = "INIT" then withOneOperand readOperand (fun L => [.init L]) operands
  else if mnemonic = "ABSORB" then withOneOperand readOperand (fun m => [.absorb (BitVec.ofNat 8 m)]) operands
  else if mnemonic = "FINAL" then withoutOperand [.final] operands
  else if mnemonic = "XOF" then withoutOperand [.xof] operands
  else if mnemonic = "SQUEEZE" then withOneOperand readOperand (fun n => [.squeeze n]) operands
  else if mnemonic = "INIT_SHAKE128" then withoutOperand (expand .initShake128) operands
  else if mnemonic = "INIT_SHAKE256" then withoutOperand (expand .initShake256) operands
  else if mnemonic = "INIT_SHA3_224" then withoutOperand (expand .initSha3_224) operands
  else if mnemonic = "INIT_SHA3_256" then withoutOperand (expand .initSha3_256) operands
  else if mnemonic = "INIT_SHA3_384" then withoutOperand (expand .initSha3_384) operands
  else if mnemonic = "INIT_SHA3_512" then withoutOperand (expand .initSha3_512) operands
  else if mnemonic = "ABSORBS" then withBytes (fun bs => expand (.absorbs bs)) operands
  else if mnemonic = "SQUEEZEN" then withOneOperand readCount (fun N => expand (.squeezeN N)) operands
  else if mnemonic = "HASH" then withLengthAndBytes operands
  else .error .unknownMnemonic

/-- One line of assembler text; a line with no word assembles to no command. -/
def assembleLine (line : List Char) : Except AssemblerError (List Instr) :=
  match splitWords [] (stripComment line) with
  | [] => .ok []
  | mnemonic :: operands => assembleWords (String.ofList mnemonic) operands

/-- A program: its lines assembled and encoded in order, or the first line's error. -/
def assemble : List (List Char) → Except AssemblerError (List CommandWord)
  | [] => .ok []
  | line :: lines =>
    match assembleLine line with
    | .error e => .error e
    | .ok is =>
      match assemble lines with
      | .ok ws => .ok (is.map encode ++ ws)
      | .error e => .error e

end Sys2Proof.Machine
end

