-- ==== Sys2Proof/Machine/Ports.lean ====
section
/-! DEFINITION. The port level: the pins of 10_state.md R30 around the transaction-level command (R15). One `tick` is one rising
edge of `clk`. BUSY (R22), the handshakes and the output drain (70_reset_and_hazards.md R104, R105), STATUS coherence (R106) and
a reset at any time (R101) live here. How long a command takes is the free CMD_LATENCY (00_scope.md R9). Log entries 8 to 10
and 22. -/

namespace Sys2Proof.Machine

/-- The input pins in one cycle (10_state.md R30). -/
structure InputPins where
  rst : Bool
  cmdValid : Bool
  cmdData : CommandWord
  outReady : Bool
deriving DecidableEq, Repr

/-- The output pins in one cycle (10_state.md R30). `outData` is `none` while `out_valid` = 0: the spec gives it no value
there. -/
structure OutputPins where
  cmdReady : Bool
  outData : Option Byte
  status : BitVec 32
deriving DecidableEq, Repr

/-- `out_valid`: the core offers an output byte. -/
def OutputPins.outValid (o : OutputPins) : Bool := o.outData.isSome

/-- A command in flight (10_state.md R27). -/
structure Job where
  /-- How many cycles of CMD_LATENCY are left. -/
  wait : Nat
  /-- The output bytes the host has not taken. -/
  bytes : List Byte
  /-- The state to commit when the command completes. -/
  result : State
deriving DecidableEq, Repr

/-- The core at the port level: the registers as STATUS shows them, the command in flight, the word offered and waiting. -/
structure PortState where
  regs : State
  job : Option Job
  offered : Option CommandWord
deriving DecidableEq, Repr

/-- The port level right after the first reset (10_state.md R33). DESIGN CHOICE: no word is waiting in it, which R33's table leaves
open: the host offered none in that reset. A later reset keeps a waiting word (`tick`). Log entries 10 and 23. -/
def PortState.reset : PortState where
  regs := State.reset
  job := none
  offered := none

/-- The byte the core offers: the next byte of a command in flight, from the cycle on in which as few cycles of its latency are
left as it has bytes left, so that with a host that takes each byte at once the last one completes it on time. Log entry 8. -/
def offeredByte : Option Job → Option Byte
  | some j => if j.wait ≤ j.bytes.length then j.bytes.head? else none
  | none => none

/-- The output pins (10_state.md R30): with `rst` = 1 the core holds `cmd_ready` = 0 and `out_valid` = 0
(70_reset_and_hazards.md R101); `cmd_ready` = 0 while BUSY = 1 (R104). -/
def portOutputs (p : InputPins) (s : PortState) : OutputPins where
  cmdReady := !p.rst && !s.regs.busy
  outData := if p.rst then none else offeredByte s.job
  status := statusWord s.regs

/-- The host changed the word it was offering before the core accepted it (10_state.md R32). A cycle with `rst` = 1 has
`cmd_ready` = 0 (70_reset_and_hazards.md R101), so the duty holds through a reset. Log entry 10. -/
def changesOffered (p : InputPins) (s : PortState) : Bool :=
  match s.offered with
  | some w => p.cmdValid && p.cmdData != w
  | none => false

/-- The word the host is offering in a cycle with `cmd_ready` = 0: while the core is busy or in reset. -/
def waitingWord (p : InputPins) : Option CommandWord := if p.cmdValid then some p.cmdData else none

/-- The registers while a command is in flight: every field but BUSY "shows its value from before the current command"
(10_state.md R23); the host's command index counts the accepted word (R16). -/
def busyRegs (s : State) : State := { s with busy := true, index := s.index + 1 }

/-- Acceptance of a word by an idle core: the command of `accept` is put in flight. A locked core discards the word in the cycle
it accepts it: no command runs, so BUSY stays 0 and `cmd_ready` stays 1 (60_exceptions.md R92; 92_eei_decisions.md D29).
Log entry 22. -/
def startJob (w : CommandWord) (s : State) : Host.Outcome PortState Fault Refusal :=
  if s.err then .next { regs := countCommand s, job := none, offered := none }
  else
    match accept w s with
    | .next t =>
      .next { regs := busyRegs s
              job := some { wait := Config.cmdLatency w (statusWord s), bytes := t.out.drop s.out.length, result := t }
              offered := none }
    | .fault f => .fault f
    | .refused r => .refused r

/-- What is transferred of a command in flight in one cycle: the byte it offers, if the host takes it. -/
def transferredBytes (p : InputPins) (j : Job) : List Byte :=
  if p.outReady then (offeredByte (some j)).toList else []

/-- The command in flight after one cycle: a cycle of its latency has passed, and what was transferred is gone. -/
def advanceJob (p : InputPins) (j : Job) : Job :=
  { j with wait := j.wait - 1, bytes := j.bytes.drop (transferredBytes p j).length }

/-- One cycle of a command in flight. It completes in the cycle that ends its latency, or, where the host was slower, takes its
last byte: then all its effects show at once (70_reset_and_hazards.md R106). Until then only the output stream grows. -/
def runJob (p : InputPins) (s : PortState) (j : Job) : PortState :=
  let k := advanceJob p j
  if k.wait = 0 ∧ k.bytes = [] then { regs := j.result, job := none, offered := waitingWord p }
  else { regs := { s.regs with out := s.regs.out ++ transferredBytes p j }, job := some k, offered := waitingWord p }

/-- One rising edge of `clk`. A host that changes an offered word is refused, in reset too (10_state.md R32;
93_implementation_defined.md U13). Reset wins over the rest and abandons a command in flight (70_reset_and_hazards.md R101); a
word offered meanwhile is not accepted and goes on waiting. -/
def tick (p : InputPins) (s : PortState) : Host.Outcome PortState Fault Refusal :=
  if changesOffered p s then .refused .offeredWordChanged
  else if p.rst then .next { regs := applyReset s.regs, job := none, offered := waitingWord p }
  else
    match s.job with
    | some j => .next (runJob p s j)
    | none => if p.cmdValid then startJob p.cmdData s.regs else .next { s with offered := none }

/-- The cycles of a list of input pins, in order, stopping at the first stop. -/
def ticks : List InputPins → PortState → Host.Outcome PortState Fault Refusal
  | [], s => .next s
  | p :: ps, s =>
    match tick p s with
    | .next t => ticks ps t
    | .fault f => .fault f
    | .refused r => .refused r

end Sys2Proof.Machine
end

