-- ==== Sys2Proof/Safety.lean ====
section
/-! DEFINITION. The terms claims use: the invariants of 10_state.md R25, what a host observes (41_sponge.md R83), a clean run,
and the legality table of 60_exceptions.md R89 written out. -/

namespace Sys2Proof.Machine

/-- 10_state.md R25 with R22: the context registers agree with PHASE, ERRCODE agrees with ERR, and a transaction-level state is
never BUSY. -/
abbrev State.Inv (s : State) : Prop :=
  (s.phase = .uninit → s.pos = 0#8 ∧ s.rate = 0#8 ∧ s.outlen = 0#7) ∧
  (s.phase ≠ .uninit →
    s.outlen.toNat ≤ 99 ∧ s.rate.toNat = 200 - 2 * s.outlen.toNat ∧ s.pos.toNat < s.rate.toNat) ∧
  (s.err = false → s.errcode = 0#4) ∧
  (s.err = true → 1 ≤ s.errcode.toNat ∧ s.errcode.toNat ≤ 6) ∧
  s.busy = false

/-- What the host observes: the output stream and STATUS (41_sponge.md R83). -/
def State.observed (s : State) : List Byte × BitVec 32 := (s.out, statusWord s)

/-- A run that ends in `s` is clean when ERR = 0 (41_sponge.md R83). -/
abbrev State.Clean (s : State) : Prop := s.err = false

/-- The ERRCODE the table of 60_exceptions.md R89 gives a command in a phase, `none` for "ok". -/
def legalityTable : Phase → Instr → Option (BitVec 4)
  | .uninit, .init L => if 100 ≤ L then some 0x6#4 else none
  | .uninit, .absorb _ => some 0x2#4
  | .uninit, .final => some 0x2#4
  | .uninit, .xof => some 0x2#4
  | .uninit, .squeeze _ => some 0x2#4
  | .initialized, .init L => if 100 ≤ L then some 0x6#4 else none
  | .initialized, .absorb _ => none
  | .initialized, .final => none
  | .initialized, .xof => none
  | .initialized, .squeeze _ => some 0x5#4
  | .finalized, .init L => if 100 ≤ L then some 0x6#4 else none
  | .finalized, .absorb _ => some 0x3#4
  | .finalized, .final => some 0x4#4
  | .finalized, .xof => some 0x4#4
  | .finalized, .squeeze _ => some 0x5#4
  | .squeezeReady, .init L => if 100 ≤ L then some 0x6#4 else none
  | .squeezeReady, .absorb _ => some 0x3#4
  | .squeezeReady, .final => some 0x4#4
  | .squeezeReady, .xof => some 0x4#4
  | .squeezeReady, .squeeze _ => none

/-- `KeccakF` applied `n` times. -/
def keccakFIter : Nat → Lanes → Lanes
  | 0, A => A
  | n + 1, A => keccakFIter n (keccakF A)

/-- A sequence of commands, each run by `exec`, stopping at the first stop. -/
def execAll : List Instr → State → Host.Outcome State Fault Refusal
  | [], s => .next s
  | i :: is, s =>
    match exec i s with
    | .next t => execAll is t
    | .fault f => .fault f
    | .refused r => .refused r

/-! ### A block-wise reference of the sponge

The sponge as a function of whole messages, one block at a time, with no position register: what 41_sponge.md R74 to R76 add up
to. -/

/-- The message with its domain suffix and its end-of-block bit, filled with zero bytes to a multiple of the rate
(41_sponge.md R75, R76): one byte `suffix ^ 0x80` where a single byte is missing. -/
def paddedMessage (rate : Nat) (suffix : Byte) (message : List Byte) : List Byte :=
  let filled := message.length % rate
  if filled + 1 = rate then message ++ [suffix ^^^ 0x80#8]
  else message ++ suffix :: (List.replicate (rate - filled - 2) 0#8 ++ [0x80#8])

/-- The lane file with a block XORed into its first bytes. -/
@[irreducible] def xorBlock (A : Lanes) (block : List Byte) : Lanes :=
  lanesOfBytes (Vector.ofFn fun b => byteAt A b ^^^ block.getD b.val 0#8)

/-- The first `n` blocks absorbed, a permutation after each. -/
def absorbBlocks (rate : Nat) : Nat → Lanes → List Byte → Lanes
  | 0, A, _ => A
  | n + 1, A, bytes => absorbBlocks rate n (keccakF (xorBlock A (bytes.take rate))) (bytes.drop rate)

/-- The lane file after the whole padded message. -/
def spongeLanes (rate : Nat) (suffix : Byte) (message : List Byte) : Lanes :=
  let padded := paddedMessage rate suffix message
  absorbBlocks rate (padded.length / rate) zeroLanes padded

/-- The fixed digest of a message: the first L bytes (41_sponge.md R75). -/
def spongeDigest (L : Nat) (message : List Byte) : List Byte :=
  (bytesOfLanes (spongeLanes (200 - 2 * L) 0x06#8 message)).toList.take L

/-- Byte `j` of the output stream that starts at position 0 of the lane file `A`: byte `j mod rate` after `j div rate`
permutations (41_sponge.md R77). -/
def streamByte (rate : Nat) (A : Lanes) (j : Nat) : Option Byte :=
  (bytesOfLanes (keccakFIter (j / rate) A)).toList[j % rate]?

/-- A safe port-level state: BUSY shows exactly while a command is in flight (10_state.md R22), and the bytes of a command in
flight that the host has not taken are exactly what its result's output stream has beyond the bytes transferred. -/
abbrev PortState.Inv (s : PortState) : Prop :=
  s.regs.busy = s.job.isSome ∧
  (∀ j, s.job = some j → j.result.busy = false ∧ j.result.out = s.regs.out ++ j.bytes)

end Sys2Proof.Machine
end

