-- ==== Sys2Proof/Certificates/Slice0/Obligations.lean ====
section
/-! DEFINITION. The statements for the provers. Each docstring names the rules of spec/ it formalises. -/

open Sys2Proof Sys2Proof.Machine

/-! ### Encoding (30_encoding.md) -/

/-- 30_encoding.md R50 to R52: the decoder reads back every well-formed command, whatever its operand. -/
def Obligations.DecodeOfEncode : Prop :=
  ∀ i : Instr, i.wellFormed = true → decode (encode i) = .ok i

/-- 30_encoding.md R52: "A word either decodes to exactly one command or is illegal": a decoded word is the encoding of the
command it decodes to, and that command is well formed. -/
def Obligations.EncodeOfDecode : Prop :=
  ∀ (w : CommandWord) (i : Instr), decode w = .ok i → i.wellFormed = true ∧ encode i = w

/-- 30_encoding.md R51: the match and mask pairs of the opcode map, and IMM8 zero-extended (R50), decide what each word is. -/
def Obligations.DecodeByMatchAndMask : Prop :=
  ∀ w : CommandWord,
    (∀ L, decode w = .ok (.init L) ↔ w &&& 0xFF00#16 = 0x1000#16 ∧ L = w.toNat % 256) ∧
    (∀ m : Byte, decode w = .ok (.absorb m) ↔ w &&& 0xFF00#16 = 0x2000#16 ∧ m.toNat = w.toNat % 256) ∧
    (decode w = .ok .final ↔ w &&& 0xFFFF#16 = 0x3000#16) ∧
    (decode w = .ok .xof ↔ w &&& 0xFFFF#16 = 0x4000#16) ∧
    (∀ n, decode w = .ok (.squeeze n) ↔ w &&& 0xFF00#16 = 0x5000#16 ∧ n = w.toNat % 256)

/-- Words written out from the encodings of 30_encoding.md R51 and the boundary words of 95_test_vectors.md V-D. -/
def Obligations.DecodesWrittenOutWords : Prop :=
  decode 0b0001000000100000#16 = .ok (.init 32) ∧
  decode 0b0001000001100100#16 = .ok (.init 100) ∧
  decode 0b0010000001100001#16 = .ok (.absorb 0x61#8) ∧
  decode 0b0011000000000000#16 = .ok .final ∧
  decode 0b0100000000000000#16 = .ok .xof ∧
  decode 0b0101000011111111#16 = .ok (.squeeze 255) ∧
  decode 0x0000#16 = .error .reservedOpcode ∧
  decode 0x1120#16 = .error .reservedBits ∧
  decode 0x3001#16 = .error .operandInFormatN ∧
  decode 0x6000#16 = .error .reservedOpcode

/-- 30_encoding.md R52, R53, 60_exceptions.md R91: every reserved word takes the fault entry with BAD_COMMAND and changes nothing
else of the core: opcodes 0x0 and 0x6..0xF, RSV not 0, and FINAL or XOF with IMM8 not 0. That the host's command index (10_state.md
R16) counts an Illegal word is the model's reading (log entry 6). -/
def Obligations.ReservedWordsTakeBadCommand : Prop :=
  ∀ (w : CommandWord) (s : State), s.err = false →
    (w.extractLsb' 8 4 ≠ 0#4 ∨
      (w.extractLsb' 12 4 = 0#4 ∨ 6 ≤ (w.extractLsb' 12 4).toNat) ∨
      ((w.extractLsb' 12 4 = 3#4 ∨ w.extractLsb' 12 4 = 4#4) ∧ w.extractLsb' 0 8 ≠ 0#8)) →
    accept w s = .next { s with err := true, errcode := 0x1#4, index := s.index + 1 }

/-- 30_encoding.md R55: the assembler emits only commands whose operand is in 0..255. -/
def Obligations.AssembledCommandsWellFormed : Prop :=
  ∀ (line : List Char) (is : List Instr), assembleLine line = .ok is → ∀ i ∈ is, i.wellFormed = true

/-! ### The step (41_sponge.md R72) -/

/-- 41_sponge.md R72, 10_state.md R16: with ERR = 0 and a legal word offered, a step is the word's command, on the state with
the word taken and the host's command index advanced by 1. -/
def Obligations.StepRunsDecodedCommand : Prop :=
  ∀ (s : State) (w : CommandWord) (rest : List HostInput) (i : Instr),
    s.inputs = .command w :: rest → s.err = false → decode w = .ok i →
    step s = exec i { s with inputs := rest, index := s.index + 1 }

/-- 60_exceptions.md R92: while ERR = 1 the core is locked. Every word is accepted and discarded, whatever the words and however
many: nothing of the core changes. At the pins `cmd_ready` is not held low, and a word is discarded in the cycle it is offered,
with no command in flight. Only reset leaves the locked state. Three points are the model's readings: that the locked state is a
next state and no stop (log entry 4), that the host's command index counts a discarded word (log entry 6), and that discarding
one makes nothing BUSY (log entry 22). -/
def Obligations.LockedCoreDiscardsWords : Prop :=
  (∀ (ws : List CommandWord) (s : State), s.err = true →
    acceptAll ws s = .next { s with index := s.index + ws.length }) ∧
  (∀ (p : InputPins) (s : PortState), s.regs.err = true → s.regs.busy = false → p.rst = false →
    (portOutputs p s).cmdReady = true) ∧
  (∀ (p : InputPins) (s : PortState), s.regs.err = true → s.job = none → p.rst = false → changesOffered p s = false →
    p.cmdValid = true →
    tick p s = .next { regs := { s.regs with index := s.regs.index + 1 }, job := none, offered := none }) ∧
  (∀ s t : State, step s = .next t → s.err = true → t.err = false → ∃ rest, s.inputs = .reset :: rest) ∧
  (∀ (s : State) (rest : List HostInput), s.inputs = .reset :: rest → ∃ t, step s = .next t ∧ t.err = false)

/-- 60_exceptions.md R100: with no command offered the core holds all its state. -/
def Obligations.IdleHoldsState : Prop :=
  ∀ s : State, s.inputs = [] → step s = .next s

/-- 70_reset_and_hazards.md R101: from every state, locked ones included, reset loads the reset values of 10_state.md R33 that
the spec states. That the record of bytes already taken, the host's remaining inputs and its command index stay is the model's
reading (log entries 3 and 14). -/
def Obligations.ResetLoadsResetValues : Prop :=
  ∀ (s : State) (rest : List HostInput), s.inputs = .reset :: rest →
    ∃ t, step s = .next t ∧ t.phase = .uninit ∧ t.err = false ∧ t.errcode = 0#4 ∧ t.busy = false ∧
      t.pos = 0#8 ∧ t.rate = 0#8 ∧ t.outlen = 0#7 ∧ statusWord t = 0#32 ∧
      t.out = s.out ∧ t.inputs = rest ∧ t.index = s.index

/-- 10_state.md R33: the values of the reset state that the spec states (the lanes are not among them): the registers, STATUS,
which R23 makes 0 of them, and the two channels from the first cycle after reset. -/
def Obligations.ResetStateValues : Prop :=
  State.reset.phase = .uninit ∧ State.reset.err = false ∧ State.reset.errcode = 0#4 ∧ State.reset.busy = false ∧
  State.reset.pos = 0#8 ∧ State.reset.rate = 0#8 ∧ State.reset.outlen = 0#7 ∧ State.reset.out = [] ∧
  statusWord State.reset = 0#32 ∧
  (∀ p : InputPins, p.rst = false →
    (portOutputs p PortState.reset).cmdReady = true ∧ (portOutputs p PortState.reset).outValid = false)

/-! ### Invariants (10_state.md R25) -/

/-- The reset state meets the invariants of 10_state.md R25 and R22. -/
def Obligations.ResetMeetsContextInvariant : Prop := State.reset.Inv

/-- 10_state.md R25 and R22: every step keeps the invariants, from every state that meets them. -/
def Obligations.StepKeepsContextInvariant : Prop :=
  ∀ s t : State, s.Inv → step s = .next t → t.Inv

/-- 20_memory.md R39: from a state that meets the invariants no command computes a byte index outside 0..199, so a step always
answers a next state. That a misuse and a word in the locked state answer one too is the model's reading (log entry 4). -/
def Obligations.StepAnswersNextState : Prop :=
  ∀ s : State, s.Inv → ∃ t, step s = .next t

/-- 10_state.md R25: whatever the host presents, legal or not, and for as long as it likes, every state of the run meets the
invariants, and the run never stops, which for misuse and for the locked state is the model's reading (log entry 4). -/
def Obligations.ReachableStatesMeetInvariants : Prop :=
  ∀ (presented : List HostInput) (n : Nat),
    ∃ t, Host.Core.run Sys2Proof.core n { State.reset with inputs := presented } = .next t ∧ t.Inv

/-! ### The commands (41_sponge.md R73 to R77) -/

/-- 41_sponge.md R73: INIT, from every phase, with its words, its error case and its example. -/
def Obligations.InitCreatesFreshContext : Prop :=
  (∀ (L : Nat) (s : State), L < 100 →
    ∃ t, exec (.init L) s = .next t ∧ (∀ i : Fin 25, t.lanes[i] = 0#64) ∧ t.outlen.toNat = L ∧
      t.rate.toNat = 200 - 2 * L ∧ t.pos = 0#8 ∧ t.phase = .initialized ∧
      t.err = s.err ∧ t.errcode = s.errcode ∧ t.busy = s.busy ∧ t.inputs = s.inputs ∧ t.index = s.index ∧
      t.out = s.out) ∧
  (∀ (L : Nat) (s : State), 100 ≤ L → s.err = false →
    exec (.init L) s = .next { s with err := true, errcode := 0x6#4 }) ∧
  (∀ L : Nat, L < 256 → decode (0x1000#16 ||| BitVec.ofNat 16 L) = .ok (.init L)) ∧
  (∃ t, accept 0x1020#16 State.reset = .next t ∧ t.outlen = 32#7 ∧ t.rate = 136#8 ∧ t.pos = 0#8 ∧
    statusWord t = 0x20880001#32)

/-- 41_sponge.md R74, inside a block: one state byte is XORed with the message byte, POS advances, and nothing else changes. -/
def Obligations.AbsorbInsideBlock : Prop :=
  ∀ (m : Byte) (s : State), s.Inv → s.phase = .initialized → s.pos.toNat + 1 < s.rate.toNat →
    ∃ A : Lanes, exec (.absorb m) s = .next { s with lanes := A, pos := s.pos + 1#8 } ∧
      ∀ b : Fin 200, byteAt A b = if b.val = s.pos.toNat then byteAt s.lanes b ^^^ m else byteAt s.lanes b

/-- 41_sponge.md R74, at the end of a block: the byte is XORed in, the permutation runs in the same command, POS is 0, and
nothing else changes. -/
def Obligations.AbsorbFillingBlock : Prop :=
  ∀ (m : Byte) (s : State), s.Inv → s.phase = .initialized → s.pos.toNat + 1 = s.rate.toNat →
    ∃ A : Lanes, exec (.absorb m) s = .next { s with lanes := keccakF A, pos := 0#8 } ∧
      ∀ b : Fin 200, byteAt A b = if b.val = s.pos.toNat then byteAt s.lanes b ^^^ m else byteAt s.lanes b

/-- 41_sponge.md R75: FINAL XORs 0x06 at POS and 0x80 at RATE − 1 (both on one byte where they meet), permutes once, emits the
first OUTLEN bytes in index order, and moves to FINALIZED; nothing else changes, POS included. -/
def Obligations.FinalEmitsDigest : Prop :=
  ∀ s : State, s.Inv → s.phase = .initialized →
    ∃ A : Lanes,
      exec .final s = .next { s with
        lanes := keccakF A, phase := .finalized,
        out := s.out ++ (bytesOfLanes (keccakF A)).toList.take s.outlen.toNat } ∧
      ∀ b : Fin 200, byteAt A b =
        byteAt s.lanes b ^^^ (if b.val = s.pos.toNat then 0x06#8 else 0#8) ^^^
          (if b.val + 1 = s.rate.toNat then 0x80#8 else 0#8)

/-- 41_sponge.md R76: XOF XORs 0x1F at POS and 0x80 at RATE − 1, permutes once, sets POS to 0 and enters SQUEEZE_READY; it
emits nothing and changes nothing else. -/
def Obligations.XofEntersSqueezeMode : Prop :=
  ∀ s : State, s.Inv → s.phase = .initialized →
    ∃ A : Lanes,
      exec .xof s = .next { s with lanes := keccakF A, pos := 0#8, phase := .squeezeReady } ∧
      ∀ b : Fin 200, byteAt A b =
        byteAt s.lanes b ^^^ (if b.val = s.pos.toNat then 0x1F#8 else 0#8) ^^^
          (if b.val + 1 = s.rate.toNat then 0x80#8 else 0#8)

/-- 41_sponge.md R77: SQUEEZE n emits exactly n bytes; byte k is the byte POS + k of the stream, that is byte (POS + k) mod RATE
of the lanes permuted (POS + k) div RATE times; the lanes and POS are left where the stream goes on (the eager permutation of
90_conflicts.md C2), and nothing else changes. -/
def Obligations.SqueezeEmitsStream : Prop :=
  ∀ (n : Nat) (s : State), s.Inv → s.phase = .squeezeReady →
    ∃ bytes : List Byte, bytes.length = n ∧
      (∀ k, k < n → bytes[k]? = streamByte s.rate.toNat s.lanes (s.pos.toNat + k)) ∧
      exec (.squeeze n) s = .next { s with
        lanes := keccakFIter ((s.pos.toNat + n) / s.rate.toNat) s.lanes
        pos := BitVec.ofNat 8 ((s.pos.toNat + n) % s.rate.toNat)
        out := s.out ++ bytes }

/-- 41_sponge.md R77, 30_encoding.md R50: SQUEEZE 0 in SQUEEZE_READY emits nothing and changes nothing. -/
def Obligations.SqueezeZeroChangesNothing : Prop :=
  ∀ s : State, s.phase = .squeezeReady → exec (.squeeze 0) s = .next s

/-- 41_sponge.md R79: any split of a count into commands emits the same bytes and leaves the same state as one squeeze. -/
def Obligations.SqueezesCompose : Prop :=
  (∀ (a b : Nat) (s : State), s.phase = .squeezeReady →
    execAll [.squeeze a, .squeeze b] s = exec (.squeeze (a + b)) s) ∧
  (∀ (counts : List Nat) (s : State), s.phase = .squeezeReady →
    execAll (counts.map .squeeze) s = exec (.squeeze counts.sum) s)

/-- 30_encoding.md R56: the expansion of SQUEEZEN N is made of encodable commands and is one squeeze of N bytes. -/
def Obligations.SqueezeNExpansionIsOneSqueeze : Prop :=
  ∀ (N : Nat) (s : State), s.phase = .squeezeReady →
    (∀ i ∈ expand (.squeezeN N), i.wellFormed = true) ∧ execAll (expand (.squeezeN N)) s = exec (.squeeze N) s

/-- 41_sponge.md R78, 30_encoding.md R56: absorbing x and then y is absorbing x ‖ y in one go. -/
def Obligations.AbsorbingStreams : Prop :=
  ∀ (x y : List Byte) (s t : State), execAll (expand (.absorbs x)) s = .next t →
    execAll (expand (.absorbs (x ++ y))) s = execAll (expand (.absorbs y)) t

/-- 41_sponge.md R80: from POS = 0 in INITIALIZED, exactly RATE bytes run KeccakF once, on the lanes with the block XORed in,
and leave POS = 0; RATE + 1 bytes run it once, part-way, and leave POS = 1 with the last byte XORed in at byte 0. -/
def Obligations.BlockBoundaries : Prop :=
  ∀ (block : List Byte) (last : Byte) (s : State), s.Inv → s.phase = .initialized → s.pos = 0#8 →
    block.length = s.rate.toNat →
    ∃ A B : Lanes,
      (∀ b : Fin 200, byteAt A b = byteAt s.lanes b ^^^ block.getD b.val 0#8) ∧
      execAll (expand (.absorbs block)) s = .next { s with lanes := keccakF A, pos := 0#8 } ∧
      (∀ b : Fin 200, byteAt B b = if b.val = 0 then byteAt (keccakF A) b ^^^ last else byteAt (keccakF A) b) ∧
      execAll (expand (.absorbs (block ++ [last]))) s = .next { s with lanes := B, pos := 1#8 }

/-- 30_encoding.md R56 with 41_sponge.md R73 to R75: HASH L emits the block-wise sponge's digest of the message, from every
state and for every message and every L in 0..99; and with XOF in FINAL's place the lanes are those of the block-wise sponge
with the SHAKE suffix. The block-wise sponge is this model's reference, `spongeDigest` of Safety.lean. -/
def Obligations.HashIsBlockwiseSponge : Prop :=
  ∀ (L : Nat) (message : List Byte) (s : State), L < 100 →
    (∃ t, execAll (expand (.hash L message)) s = .next t ∧ t.phase = .finalized ∧
      t.out = s.out ++ spongeDigest L message ∧ t.err = s.err ∧ t.errcode = s.errcode) ∧
    (∃ t, execAll (.init L :: (expand (.absorbs message) ++ [.xof])) s = .next t ∧ t.phase = .squeezeReady ∧
      t.pos = 0#8 ∧ t.out = s.out ∧ t.lanes = spongeLanes (200 - 2 * L) 0x1F#8 message)

/-- 41_sponge.md R83 with 30_encoding.md R56: the command words of HASH L, presented to the core in its reset state, take one
step each and end in a clean run whose whole output stream is the digest of 41_sponge.md R73 to R75, as the block-wise sponge
gives it. The rest of what a host can observe, STATUS, is FINALIZED with no error. The command index counts the words (10_state.md
R16) from 0, the model's value at reset (log entry 14). -/
def Obligations.HashRunEndsClean : Prop :=
  ∀ (L : Nat) (message : List Byte), L < 100 →
    ∃ t, Host.Core.run Sys2Proof.core (message.length + 2)
        { State.reset with inputs := (expand (.hash L message)).map fun i => .command (encode i) } = .next t ∧
      t.inputs = [] ∧ t.index = message.length + 2 ∧ t.Clean ∧ t.phase = .finalized ∧ t.out = spongeDigest L message

/-! ### Misuse (60_exceptions.md) -/

/-- 60_exceptions.md R89, R90: with ERR = 0, a word is judged by the table of R89, BAD_COMMAND before everything else; where
the table says "ok" the command runs and sets no error, from every state that meets the invariants. With ERR = 1 every word is
discarded. That the host's command index (10_state.md R16) counts Illegal and discarded words is the model's reading (log entry
6). -/
def Obligations.LegalityTableHolds : Prop :=
  (∀ (w : CommandWord) (s : State), s.err = false → (∀ i, decode w ≠ .ok i) →
    accept w s = .next { s with err := true, errcode := 0x1#4, index := s.index + 1 }) ∧
  (∀ (w : CommandWord) (i : Instr) (c : BitVec 4) (s : State), s.err = false → decode w = .ok i →
    legalityTable s.phase i = some c →
    accept w s = .next { s with err := true, errcode := c, index := s.index + 1 }) ∧
  (∀ (w : CommandWord) (i : Instr) (s : State), s.Inv → s.err = false → decode w = .ok i →
    legalityTable s.phase i = none →
    accept w s = exec i { s with index := s.index + 1 } ∧ ∃ t, accept w s = .next t ∧ t.Clean) ∧
  (∀ (w : CommandWord) (s : State), s.err = true → accept w s = .next { s with index := s.index + 1 })

/-- 60_exceptions.md R91: a fault is precise. A word that sets ERR leaves the lanes, POS, RATE, OUTLEN, PHASE and the output
stream as they were, and its code is one of 1..6; a fault raised while ERR = 1 records nothing. The rule marks its sentence on
precision as derived. That the host's command index (10_state.md R16) counts a word that faults, an Illegal one too, is the
model's reading (log entry 6). -/
def Obligations.FaultEntryChangesOnlyErr : Prop :=
  (∀ (w : CommandWord) (s t : State), accept w s = .next t → s.err = false → t.err = true →
    t = { s with err := true, errcode := t.errcode, index := s.index + 1 } ∧
      1 ≤ t.errcode.toNat ∧ t.errcode.toNat ≤ 6) ∧
  (∀ (m : Misuse) (s : State), s.err = false → raise m s = { s with err := true, errcode := misuseCode m }) ∧
  (∀ (m : Misuse) (s : State), s.err = true → raise m s = s)

/-- 10_state.md R21: ERR is sticky, and ERRCODE keeps the first code, through every step but a reset; no command clears them,
INIT included. -/
def Obligations.ErrStickyUntilReset : Prop :=
  (∀ s t : State, step s = .next t → s.err = true →
    (t.err = true ∧ t.errcode = s.errcode) ∨ ∃ rest, s.inputs = .reset :: rest) ∧
  (∀ (i : Instr) (s t : State), exec i s = .next t → s.err = true → t.err = true ∧ t.errcode = s.errcode)

/-- 10_state.md R31: only FINAL and SQUEEZE emit bytes; FINAL exactly OUTLEN, SQUEEZE exactly the count its operand gives; a
command that faults emits nothing. The bytes are appended after every byte already emitted. -/
def Obligations.EmittedByteCounts : Prop :=
  ∀ (i : Instr) (s t : State), exec i s = .next t → s.err = false →
    (t.err = true → t.out = s.out) ∧
    (t.err = false → ∃ bytes : List Byte, t.out = s.out ++ bytes ∧
      bytes.length = match i with
        | .init _ => 0
        | .absorb _ => 0
        | .final => s.outlen.toNat
        | .xof => 0
        | .squeeze n => n)

/-- 10_state.md R20: PHASE moves only along the state machine: to INITIALIZED by INIT, from INITIALIZED to FINALIZED by FINAL
and to SQUEEZE_READY by XOF. -/
def Obligations.PhaseMovesAlongStateMachine : Prop :=
  ∀ (i : Instr) (s t : State), exec i s = .next t → t.phase ≠ s.phase →
    ((∃ L, i = .init L ∧ L < 100) ∧ t.phase = .initialized) ∨
    (i = .final ∧ s.phase = .initialized ∧ t.phase = .finalized) ∨
    (i = .xof ∧ s.phase = .initialized ∧ t.phase = .squeezeReady)

/-- What no command writes. RATE and OUTLEN are written by INIT alone (41_sponge.md R73 to R77); FINAL leaves POS (R75); the host's
inputs and its command index are the host's (10_state.md R16), and BUSY is timing state (10_state.md R22). -/
def Obligations.CommandsFrame : Prop :=
  ∀ (i : Instr) (s t : State), exec i s = .next t →
    t.inputs = s.inputs ∧ t.index = s.index ∧ t.busy = s.busy ∧
    (i = .final → t.pos = s.pos) ∧
    ((∀ L, i ≠ .init L) → t.rate = s.rate ∧ t.outlen = s.outlen)

/-- 41_sponge.md R81, 10_state.md R33: the value of the lanes at reset is never observed. Two runs that present the same inputs
and start from reset states with any two lane files show the host the same output stream and the same STATUS at every step, and
once a context exists they are in the same state. This is what makes the reset value of log entry 2 harmless. -/
def Obligations.LanesBeforeInitUnobservable : Prop :=
  ∀ (A B : Lanes) (presented : List HostInput) (n : Nat),
    ∃ t u, Host.Core.run Sys2Proof.core n { State.reset with lanes := A, inputs := presented } = .next t ∧
      Host.Core.run Sys2Proof.core n { State.reset with lanes := B, inputs := presented } = .next u ∧
      t.observed = u.observed ∧ (t.phase ≠ .uninit → t = u)

/-! ### The permutation (40_permutation.md) -/

/-- 40_permutation.md R57: bit i of v moves to bit (i + n) mod 64; the pseudocode's shifts; the corner cases; the example. -/
def Obligations.RotationMovesBits : Prop :=
  (∀ (v : Lane) (n i : Nat), i < 64 → (rotl64 v n).getLsbD ((i + n) % 64) = v.getLsbD i) ∧
  (∀ (v : Lane) (n : Nat), n % 64 ≠ 0 → rotl64 v n = ((v <<< (n % 64)) ||| (v >>> (64 - n % 64)))) ∧
  (∀ v : Lane, rotl64 v 0 = v) ∧ (∀ v : Lane, rotl64 v 64 = v) ∧
  rotl64 0x8000000000000001#64 1 = 0x0000000000000003#64

/-- 40_permutation.md R59: the LFSR regenerates all 24 round constants, and no bit but 0, 1, 3, 7, 15, 31 and 63 is ever 1. -/
def Obligations.LfsrRegeneratesRoundConstants : Prop :=
  (∀ ir : Fin 24, generatedRoundConstant ir.val = roundConstants[ir]) ∧
  (∀ ir : Fin 24, roundConstants[ir] &&& ~~~0x800000008000808B#64 = 0#64)

/-- 40_permutation.md R61: Pi moves the lane at (x, y) to (y, 2x + 3y mod 5); the lane written at (x, y) is read from
(x + 3y mod 5, x); the list PISRC; lane 0 stays; the other 24 lanes are one cycle that starts at lane 1. -/
def Obligations.PiMovesLanes : Prop :=
  (∀ (A : Lanes) (x y : Fin 5), laneAt (pi A) y (2 * x + 3 * y) = laneAt A x y) ∧
  (∀ (A : Lanes) (x y : Fin 5), laneAt (pi A) x y = laneAt A (x + 3 * y) x) ∧
  piSource.toList = [0, 6, 12, 18, 24, 3, 9, 10, 16, 22, 1, 7, 13, 19, 20, 4, 5, 11, 17, 23, 2, 8, 14, 15, 21] ∧
  (∀ A : Lanes, (pi A)[0] = A[0]) ∧
  (∀ i : Fin 25, i ≠ 0 → ∃ k : Fin 24, (fun j : Fin 25 => piSource[j])^[k.val] 1 = i) ∧
  (fun j : Fin 25 => piSource[j])^[24] 1 = 1

/-- 40_permutation.md R69: the walk's two tables, and their agreement with RHO and PISRC. -/
def Obligations.WalkTablesAgree : Prop :=
  rotationWalk.toList =
    [1, 3, 6, 10, 15, 21, 28, 36, 45, 55, 2, 14, 27, 41, 56, 8, 25, 43, 62, 18, 39, 61, 20, 44] ∧
  laneWalk.toList = [10, 7, 11, 17, 18, 3, 5, 16, 8, 21, 24, 4, 15, 23, 19, 13, 12, 2, 20, 14, 22, 9, 6, 1] ∧
  rhoOffsets[1] = rotationWalk[0] ∧ piSource[laneWalk[0]] = 1 ∧
  (∀ k : Fin 23, rhoOffsets[laneWalk[k.val]] = rotationWalk[k.val + 1] ∧
    piSource[laneWalk[k.val + 1]] = laneWalk[k.val])

/-- 40_permutation.md R70: the fused walk has the net effect of Rho followed by Pi, for every state; lane 0 is never written;
KeccakF with the fused form is KeccakF. -/
def Obligations.FusedWalkIsRhoThenPi : Prop :=
  (∀ A : Lanes, rhoPiFused A = pi (rho A)) ∧
  (∀ A : Lanes, (rhoPiFused A)[0] = A[0]) ∧
  (∀ A : Lanes, (List.finRange 24).foldl (fun A ir => iota (chi (rhoPiFused (theta A))) ir) A = keccakF A)

/-- 40_permutation.md R62: every lane of Theta, from the column parities of the input, before any lane changes; the all-zero
state and a state whose every column has even parity are unchanged; the rule's example. -/
def Obligations.ThetaUsesInputParities : Prop :=
  (∀ (A : Lanes) (x y : Fin 5), laneAt (theta A) x y =
    laneAt A x y ^^^ (columnParity A (x + 4) ^^^ rotl64 (columnParity A (x + 1)) 1)) ∧
  (∀ (A : Lanes) (x : Fin 5), columnParity A x =
    laneAt A x 0 ^^^ laneAt A x 1 ^^^ laneAt A x 2 ^^^ laneAt A x 3 ^^^ laneAt A x 4) ∧
  theta zeroLanes = zeroLanes ∧
  (∀ A : Lanes, (∀ x : Fin 5, columnParity A x = 0#64) → theta A = A) ∧
  (theta (zeroLanes.set 0 1#64)).toList = [1, 1, 0, 0, 2, 0, 1, 0, 0, 2, 0, 1, 0, 0, 2, 0, 1, 0, 0, 2, 0, 1, 0, 0, 2]

/-- 40_permutation.md R65: every lane of Chi, from the pre-step row (so rows do not mix); an all-ones row and an all-zero row
stay; the rule's two examples. -/
def Obligations.ChiActsOnRows : Prop :=
  (∀ (A : Lanes) (x y : Fin 5), laneAt (chi A) x y =
    laneAt A x y ^^^ (~~~(laneAt A (x + 1) y) &&& laneAt A (x + 2) y)) ∧
  (∀ (A B : Lanes) (y : Fin 5), (∀ x, laneAt A x y = laneAt B x y) →
    ∀ x, laneAt (chi A) x y = laneAt (chi B) x y) ∧
  (∀ (A : Lanes) (y : Fin 5), (∀ x, laneAt A x y = BitVec.allOnes 64) →
    ∀ x, laneAt (chi A) x y = BitVec.allOnes 64) ∧
  (∀ (A : Lanes) (y : Fin 5), (∀ x, laneAt A x y = 0#64) → ∀ x, laneAt (chi A) x y = 0#64) ∧
  chi (zeroLanes.set 2 1#64) = (zeroLanes.set 0 1#64).set 2 1#64 ∧
  chi (zeroLanes.set 0 0xFFFFFFFFFFFFFFFF#64) =
    (zeroLanes.set 0 0xFFFFFFFFFFFFFFFF#64).set 3 0xFFFFFFFFFFFFFFFF#64

/-- 40_permutation.md R66, R67: a round of the all-zero state leaves the round constant in lane 0 and zero elsewhere. -/
def Obligations.RoundOfZeroIsRoundConstant : Prop :=
  ∀ (ir : Fin 24) (i : Fin 25), (keccakRound zeroLanes ir)[i] = if i = 0 then roundConstants[ir] else 0#64

/-- 40_permutation.md R71: any number of rounds at a time, in increasing order, gives KeccakF. -/
def Obligations.RoundsInChunksAreKeccakF : Prop :=
  ∀ (chunks : List (List (Fin 24))) (A : Lanes), chunks.flatten = List.finRange 24 →
    chunks.foldl (fun A rounds => keccakRounds rounds A) A = keccakF A

/-! ### The byte view (20_memory.md) -/

/-- 20_memory.md R34: MemRead gives the eight bits of the lane the rule names, MemWrite sets them and leaves the other 1592 bits
and every other register unchanged, and byte b lies in column (b div 8) mod 5 and row (b div 8) div 5. -/
def Obligations.ByteViewReadWrite : Prop :=
  (∀ (s : State) (b : Fin 200), ∃ v : Byte, memRead s b.val = .ok v ∧
    ∀ k : Fin 8, v.getLsbD k.val = (s.lanes[b.val / 8]'(by omega)).getLsbD (8 * (b.val % 8) + k.val)) ∧
  (∀ (s : State) (b : Fin 200) (v : Byte), ∃ A : Lanes, memWrite s b.val v = .ok { s with lanes := A } ∧
    ∀ (i : Fin 25) (j : Fin 64), A[i].getLsbD j.val =
      if i.val = b.val / 8 ∧ j.val / 8 = b.val % 8 then v.getLsbD (j.val % 8) else s.lanes[i].getLsbD j.val) ∧
  (∀ b : Fin 200, (columnOf (laneOfByte b)).val = b.val / 8 % 5 ∧ (rowOf (laneOfByte b)).val = b.val / 8 / 5)

/-- 20_memory.md R35: the two views convert into each other without loss, the first byte of a lane least significant. -/
def Obligations.ViewsConvertWithoutLoss : Prop :=
  (∀ A : Lanes, lanesOfBytes (bytesOfLanes A) = A) ∧
  (∀ bytes : Vector Byte 200, bytesOfLanes (lanesOfBytes bytes) = bytes) ∧
  (∀ (s : State) (b : Fin 200), memRead s b.val = .ok (bytesOfLanes s.lanes)[b]) ∧
  (∀ (bytes : Vector Byte 200) (i : Fin 25), (lanesOfBytes bytes)[i] =
    bytes[8 * i.val + 7] ++ bytes[8 * i.val + 6] ++ bytes[8 * i.val + 5] ++ bytes[8 * i.val + 4] ++
      bytes[8 * i.val + 3] ++ bytes[8 * i.val + 2] ++ bytes[8 * i.val + 1] ++ bytes[8 * i.val])

/-- 20_memory.md R38: every byte index 0..199 is legal; an index outside names no byte. That such an access stops the model is
the model's choice (log entry 5). -/
def Obligations.OnlyStateBytesExist : Prop :=
  ∀ (s : State) (b : Nat) (v : Byte),
    (b < 200 → (∃ x, memRead s b = .ok x) ∧ ∃ t, memWrite s b v = .ok t) ∧
    (200 ≤ b → memRead s b = .error (.noSuchStateByte b) ∧ memWrite s b v = .error (.noSuchStateByte b))

/-! ### STATUS (10_state.md R23) -/

/-- 10_state.md R23, R20: every field of STATUS at its bits, bit 31 reading 0, and the four codes of PHASE. -/
def Obligations.StatusFields : Prop :=
  ∀ s : State,
    (statusWord s).extractLsb' 2 1 = BitVec.ofBool s.err ∧
    (statusWord s).extractLsb' 3 1 = BitVec.ofBool s.busy ∧
    (statusWord s).extractLsb' 4 4 = s.errcode ∧
    (statusWord s).extractLsb' 8 8 = s.pos ∧
    (statusWord s).extractLsb' 16 8 = s.rate ∧
    (statusWord s).extractLsb' 24 7 = s.outlen ∧
    (statusWord s).getLsbD 31 = false ∧
    ((statusWord s).extractLsb' 0 2 = 0#2 ↔ s.phase = .uninit) ∧
    ((statusWord s).extractLsb' 0 2 = 1#2 ↔ s.phase = .initialized) ∧
    ((statusWord s).extractLsb' 0 2 = 2#2 ↔ s.phase = .finalized) ∧
    ((statusWord s).extractLsb' 0 2 = 3#2 ↔ s.phase = .squeezeReady)

/-! ### The port level (10_state.md R30; 70_reset_and_hazards.md R101 to R106) -/

/-- 10_state.md R15, R30, 70_reset_and_hazards.md R104, R105: with a host that offers one word and then drains the output, an
idle core at the pins ends idle in exactly the state the transaction level gives, with exactly its bytes transferred, after
finitely many cycles, whatever CMD_LATENCY is. When within the command a byte is offered is the model's choice (log entry 8). -/
def Obligations.PortCommandRefinesAccept : Prop :=
  ∀ (w : CommandWord) (s t : State), s.busy = false → accept w s = .next t →
    ∃ n : Nat, ticks (⟨false, true, w, false⟩ :: List.replicate n ⟨false, false, 0#16, true⟩) ⟨s, none, none⟩ =
      .next ⟨t, none, none⟩

/-- 00_scope.md R9, 70_reset_and_hazards.md R108, 10_state.md R22: CMD_LATENCY is the time from acceptance to completion. With a
host that takes each byte at once, a command is BUSY in every cycle before that time is over and complete when it is. One cycle
at least is BUSY, and no command completes in fewer cycles than it has bytes, one byte being transferred in a cycle (10_state.md
R30): the model's choice (log entry 8) where a CMD_LATENCY says less. -/
def Obligations.PromptHostCompletesAtLatency : Prop :=
  ∀ (w : CommandWord) (s t : State) (latency : Nat), s.busy = false → s.err = false → accept w s = .next t →
    latency = max 1 (max (Config.cmdLatency w (statusWord s)) (t.out.length - s.out.length)) →
    ticks (⟨false, true, w, true⟩ :: List.replicate latency ⟨false, false, 0#16, true⟩) ⟨s, none, none⟩ =
      .next ⟨t, none, none⟩ ∧
    ∀ k, k < latency → ∃ u, u.regs.busy = true ∧
      ticks (⟨false, true, w, true⟩ :: List.replicate k ⟨false, false, 0#16, true⟩) ⟨s, none, none⟩ = .next u

/-- 10_state.md R22: every cycle keeps the port invariant: BUSY is 1 exactly while a command is in flight, and the bytes still
to come are those the command's result has beyond what was transferred. -/
def Obligations.TickKeepsPortInvariant : Prop :=
  PortState.reset.Inv ∧ ∀ (p : InputPins) (s t : PortState), s.Inv → tick p s = .next t → t.Inv

/-- 70_reset_and_hazards.md R104: while BUSY = 1 the core holds `cmd_ready` = 0, accepts no word and keeps the command in flight;
when it completes it commits that command's result. -/
def Obligations.BusyCoreAcceptsNoWord : Prop :=
  ∀ (p : InputPins) (s t : PortState) (j : Job), s.Inv → s.job = some j → p.rst = false → tick p s = .next t →
    (portOutputs p s).cmdReady = false ∧
    ((∃ k, t.job = some k ∧ k.result = j.result ∧ t.regs.index = s.regs.index) ∨ (t.job = none ∧ t.regs = j.result))

/-- 70_reset_and_hazards.md R105: a host that never takes an offered byte leaves the core BUSY: no command completes, no word is
accepted and ERR does not change, for as long as it goes on, whatever is left of the command's latency. -/
def Obligations.UndrainedOutputHangs : Prop :=
  ∀ (ps : List InputPins) (s t : PortState) (wait : Nat) (b : Byte) (bytes : List Byte) (result : State), s.Inv →
    s.job = some ⟨wait, b :: bytes, result⟩ → (∀ p ∈ ps, p.rst = false ∧ p.outReady = false) →
    ticks ps s = .next t →
    t.regs = s.regs ∧ t.job = some ⟨wait - ps.length, b :: bytes, result⟩ ∧ t.regs.busy = true

/-- 70_reset_and_hazards.md R106: without reset, every STATUS field except BUSY (bit 3) changes only in the cycle the command in
flight completes, and then all of them show its result. -/
def Obligations.StatusCoherent : Prop :=
  ∀ (p : InputPins) (s t : PortState), s.Inv → p.rst = false → tick p s = .next t →
    statusWord t.regs &&& 0xFFFFFFF7#32 = statusWord s.regs &&& 0xFFFFFFF7#32 ∨
    ∃ j, s.job = some j ∧ t.job = none ∧ t.regs = j.result

/-- 10_state.md R30: a byte is transferred exactly in a cycle with `out_valid` = 1 and `out_ready` = 1, and joins the output
stream; nothing else does. -/
def Obligations.ByteTransferNeedsBothSides : Prop :=
  ∀ (p : InputPins) (s t : PortState), s.Inv → p.rst = false → tick p s = .next t →
    t.regs.out = s.regs.out ++ (if p.outReady then (portOutputs p s).outData.toList else [])

/-- 70_reset_and_hazards.md R101: in a cycle with `rst` = 1 the core holds `cmd_ready` = 0 and `out_valid` = 0; a command in flight
is abandoned and its remaining bytes are never emitted; STATUS is 0 afterwards and the core is ready. The host keeps its duty of
10_state.md R32, which holds in such a cycle too. That a word offered in it goes on waiting is the model's reading (log entry
10), and that bytes already taken stay in the stream is too (log entry 3). -/
def Obligations.PortResetAbandonsCommand : Prop :=
  ∀ (p : InputPins) (s : PortState), p.rst = true →
    (portOutputs p s).cmdReady = false ∧ (portOutputs p s).outValid = false ∧
    (changesOffered p s = false →
    ∃ t, tick p s = .next t ∧ t.job = none ∧ t.offered = (if p.cmdValid then some p.cmdData else none) ∧ t.regs.out = s.regs.out ∧ statusWord t.regs = 0#32 ∧
      ∀ q : InputPins, q.rst = false → (portOutputs q t).cmdReady = true ∧ (portOutputs q t).outValid = false)

/-- 10_state.md R32, 93_implementation_defined.md U13: a host that changes `cmd_data` while a word waits is refused by name, in a
cycle with `rst` = 1 too: the model has no move for it. -/
def Obligations.ChangedOfferIsRefused : Prop :=
  ∀ (p : InputPins) (s : PortState) (w : CommandWord), s.offered = some w → p.cmdValid = true →
    p.cmdData ≠ w → tick p s = .refused .offeredWordChanged
end

