-- ==== Sys2Proof/Laws/ByteView.lean ====
section
/-! SUPPORT. The laws of the byte view of one lane file (20_memory.md R34): what one byte read and one byte write do to the
64-bit lane they lie in. -/

namespace Sys2Proof.Machine

theorem laneOfByte_val (b : Fin 200) : (laneOfByte b).val = b.val / 8 := rfl

theorem bitOfByte_le (b : Fin 200) : bitOfByte b + 8 ≤ 64 := by
  unfold bitOfByte; omega

/-- A byte index is determined by its lane and its place in the lane. -/
theorem byteIndex_ext {b c : Fin 200} (hl : laneOfByte b = laneOfByte c) (hb : bitOfByte b = bitOfByte c) : b = c := by
  have h1 : b.val / 8 = c.val / 8 := congrArg Fin.val hl
  have h2 : 8 * (b.val % 8) = 8 * (c.val % 8) := hb
  exact Fin.ext (by omega)

/-- Bit by bit, `replaceByte` takes the eight bits from `k` out of the byte and keeps the others. -/
theorem getLsbD_replaceByte (v : Lane) (k : Nat) (x : Byte) (i : Nat) (hi : i < 64) :
    (replaceByte v k x).getLsbD i = if k ≤ i ∧ i < k + 8 then x.getLsbD (i - k) else v.getLsbD i := by
  have hff : ∀ j : Nat, (0xFF#64).getLsbD j = decide (j < 8) := by
    intro j
    rw [show (0xFF#64) = (BitVec.allOnes 8).setWidth 64 from rfl, BitVec.getLsbD_setWidth, BitVec.getLsbD_allOnes]
    by_cases h : j < 8 <;> simp [h]; omega
  simp only [replaceByte, BitVec.getLsbD_or, BitVec.getLsbD_and, BitVec.getLsbD_not, BitVec.getLsbD_shiftLeft,
    BitVec.getLsbD_setWidth, hff, hi, decide_true, Bool.true_and]
  by_cases h1 : k ≤ i
  · by_cases h2 : i < k + 8
    · have : i - k < 8 := by omega
      have : ¬ i < k := by omega
      have : i - k < 64 := by omega
      simp [*]
    · have h3 : ¬ i - k < 8 := by omega
      have : x.getLsbD (i - k) = false := BitVec.getLsbD_of_ge _ _ (by omega)
      simp [*]
  · have : i < k := by omega
    simp [*]

/-- The byte that was written is read back. -/
theorem extract_replaceByte_same (v : Lane) (k : Nat) (x : Byte) (hk : k + 8 ≤ 64) :
    (replaceByte v k x).extractLsb' k 8 = x := by
  apply BitVec.eq_of_getLsbD_eq
  intro i hi
  rw [BitVec.getLsbD_extractLsb', getLsbD_replaceByte v k x _ (by omega)]
  simp [hi]

/-- A byte beside the one written is unchanged. -/
theorem extract_replaceByte_other (v : Lane) (k l : Nat) (x : Byte) (hl : l + 8 ≤ 64)
    (apart : l + 8 ≤ k ∨ k + 8 ≤ l) : (replaceByte v k x).extractLsb' l 8 = v.extractLsb' l 8 := by
  apply BitVec.eq_of_getLsbD_eq
  intro i hi
  rw [BitVec.getLsbD_extractLsb', BitVec.getLsbD_extractLsb', getLsbD_replaceByte v k x _ (by omega)]
  have : ¬ (k ≤ l + i ∧ l + i < k + 8) := by omega
  simp [this]

/-- Reading a byte of a lane file in which one byte was written. -/
theorem byteAt_setByteAt (A : Lanes) (b c : Fin 200) (x : Byte) :
    byteAt (setByteAt A b x) c = if c = b then x else byteAt A c := by
  unfold byteAt setByteAt
  by_cases hl : laneOfByte c = laneOfByte b
  · by_cases hc : c = b
    · subst hc
      simp [extract_replaceByte_same _ _ _ (bitOfByte_le c)]
    · have hbit : bitOfByte c ≠ bitOfByte b := fun h => hc (byteIndex_ext hl h)
      have apart : bitOfByte c + 8 ≤ bitOfByte b ∨ bitOfByte b + 8 ≤ bitOfByte c := by
        unfold bitOfByte at *; omega
      simp [hl, hc, extract_replaceByte_other _ _ _ _ (bitOfByte_le c) apart]
  · have hc : c ≠ b := fun h => hl (by rw [h])
    have hv : (laneOfByte b).val ≠ (laneOfByte c).val := fun h => hl (Fin.ext h.symm)
    simp [hc, hv]

theorem bytesOfLanes_eq (A : Lanes) : bytesOfLanes A = Vector.ofFn fun b => byteAt A b := by
  unfold bytesOfLanes; rfl

theorem lanesOfBytes_eq (bytes : Vector Byte 200) : lanesOfBytes bytes = Vector.ofFn fun i => laneOf bytes i := by
  unfold lanesOfBytes; rfl

@[simp] theorem getElem_bytesOfLanes (A : Lanes) (b : Nat) (h : b < 200) : (bytesOfLanes A)[b] = byteAt A ⟨b, h⟩ := by
  simp [bytesOfLanes_eq]

/-- Two lane files with the same bytes are the same lane file. -/
theorem lanes_ext_byteAt {A B : Lanes} (h : ∀ b, byteAt A b = byteAt B b) : A = B := by
  apply Vector.ext
  intro i hi
  apply BitVec.eq_of_getLsbD_eq
  intro j hj
  have hb := congrArg (fun v : Byte => v.getLsbD (j % 8)) (h ⟨8 * i + j / 8, by omega⟩)
  have h1 : (8 * i + j / 8) / 8 = i := by omega
  have h3 : j % 8 < 8 := by omega
  have h4 : 8 * (j / 8 % 8) + j % 8 = j := by omega
  simpa [byteAt, laneOfByte, bitOfByte, h1, h3, h4] using hb

end Sys2Proof.Machine
end

