-- ==== Sys2Proof/Laws/Permutation.lean ====
section
/-! SUPPORT. What each step of the datapath puts in each lane (40_permutation.md R62 to R68). -/

namespace Sys2Proof.Machine

theorem keccakF_eq (A : Lanes) : keccakF A = keccakRounds (List.finRange 24) A := by
  unfold keccakF; rfl

theorem keccakRound_eq (A : Lanes) (ir : Fin 24) : keccakRound A ir = iota (chi (pi (rho (theta A)))) ir := by
  unfold keccakRound; rfl

@[simp] theorem theta_lane (A : Lanes) (i : Fin 25) : (theta A)[i] = A[i] ^^^ thetaEffect A (columnOf i) := by
  simp [theta]

@[simp] theorem rho_lane (A : Lanes) (i : Fin 25) : (rho A)[i] = rotl64 A[i] rhoOffsets[i] := by
  simp [rho]

@[simp] theorem pi_lane (A : Lanes) (i : Fin 25) : (pi A)[i] = A[piSource[i]] := by
  simp [pi]

@[simp] theorem chi_lane (A : Lanes) (i : Fin 25) : (chi A)[i] = chiLane A (columnOf i) (rowOf i) := by
  simp [chi]

theorem iota_lane (A : Lanes) (ir : Fin 24) (i : Fin 25) :
    (iota A ir)[i] = if i = 0 then A[i] ^^^ roundConstants[ir] else A[i] := by
  by_cases h : i = 0
  · subst h; simp [iota]
  · have : ¬ (0 = i.val) := fun h' => h (Fin.ext h'.symm)
    simp [iota, h, this]

@[simp] theorem keccakRounds_nil (A : Lanes) : keccakRounds [] A = A := rfl

@[simp] theorem keccakRounds_cons (r : Fin 24) (rs : List (Fin 24)) (A : Lanes) :
    keccakRounds (r :: rs) A = keccakRounds rs (keccakRound A r) := by
  simp only [keccakRounds, List.foldl_cons]

end Sys2Proof.Machine
end

