-- ==== Sys2Proof/Laws/Evaluate.lean ====
section
/-! SUPPORT. Evaluating the permutation on numerals: the same rounds on natural numbers, which the kernel runs in about two
seconds where the bit-vector form takes half a minute, and the proof that they are the same. -/

namespace Sys2Proof.Machine

/-- `k v`, with `v` evaluated first: the kernel evaluates what a match looks at. -/
def forced {α : Type} (v : Nat) (k : Nat → α) : α :=
  match v with
  | 0 => k 0
  | n + 1 => k (n + 1)

theorem forced_eq {α : Type} (v : Nat) (k : Nat → α) : forced v k = k v := by
  cases v <;> rfl

/-- `k vs`, with every number of the list evaluated first. -/
noncomputable def forcedList {α : Type} (vs : List Nat) : (List Nat → α) → α :=
  vs.rec (motive := fun _ => (List Nat → α) → α) (fun k => k [])
    (fun v _ ih k => forced v fun v' => ih fun vs' => k (v' :: vs'))

theorem forcedList_eq {α : Type} (vs : List Nat) : ∀ k : List Nat → α, forcedList vs k = k vs := by
  induction vs with
  | nil => intro k; rfl
  | cons v vs ih => 
    intro k
    have head : forcedList (v :: vs) k = forced v fun v' => forcedList vs fun vs' => k (v' :: vs') := rfl
    rw [head, forced_eq, ih]

/-- The number at an index, 0 beyond the end. -/
noncomputable def nth (A : List Nat) (n : Nat) : Nat :=
  A.rec (motive := fun _ => Nat → Nat) (fun _ => 0) (fun a _ ih n => n.casesOn a ih) n

theorem nth_eq (A : List Nat) : ∀ n, nth A n = A.getD n 0 := by
  induction A with
  | nil => intro n; rfl
  | cons a A ih =>
    intro n
    cases n with
    | zero => rfl
    | succ n => rw [List.getD_cons_succ, ← ih n]; rfl

/-- The lane file as 25 numbers. -/
def natLanes (A : Lanes) : List Nat := A.toList.map BitVec.toNat

theorem nth_natLanes (A : Lanes) (i : Fin 25) : nth (natLanes A) i.val = A[i].toNat := by
  simp [nth_eq, natLanes]

/-- The 25 numbers a function of the lane index gives. -/
def natFile (f : Nat → Nat) : List Nat :=
  [f 0, f 1, f 2, f 3, f 4, f 5, f 6, f 7, f 8, f 9, f 10, f 11, f 12, f 13, f 14, f 15, f 16, f 17, f 18, f 19, f 20, f 21,
    f 22, f 23, f 24]

theorem natFile_eq (f : Nat → Nat) (A : Lanes) (h : ∀ i : Fin 25, f i.val = A[i].toNat) : natFile f = natLanes A := by
  apply List.ext_getElem
  · simp [natFile, natLanes]
  · intro i hi _
    have hi' : i < 25 := hi
    have h' := h ⟨i, hi'⟩
    have hf : (natFile f)[i]'hi = f i := by interval_cases i <;> rfl
    refine hf.trans ?_
    simpa [natLanes] using h'

/-- `rotl64` on numbers, for an offset below 64. -/
def natRotl (v n : Nat) : Nat :=
  bif Nat.beq n 0 then v else Nat.lor (Nat.mod (Nat.shiftLeft v n) (Nat.pow 2 64)) (Nat.shiftRight v (Nat.sub 64 n))

theorem natRotl_eq (v : Lane) (n : Nat) (h : n < 64) : natRotl v.toNat n = (rotl64 v n).toNat := by
  unfold natRotl rotl64
  rw [Nat.mod_eq_of_lt h]
  by_cases h0 : n = 0
  · subst h0; rfl
  · rw [if_neg h0, show Nat.beq n 0 = false by cases n with | zero => exact absurd rfl h0 | succ n => rfl]
    simp only [cond_false, BitVec.toNat_or, BitVec.toNat_shiftLeft, BitVec.toNat_ushiftRight]
    rfl

/-- `C[x]` on numbers. -/
noncomputable def natParity (A : List Nat) (x : Nat) : Nat :=
  Nat.xor (Nat.xor (Nat.xor (Nat.xor (nth A x) (nth A (Nat.add x 5))) (nth A (Nat.add x 10))) (nth A (Nat.add x 15)))
    (nth A (Nat.add x 20))

/-- A lane of Theta on numbers, from the lanes and the parities. -/
noncomputable def natTheta (A C : List Nat) (i : Nat) : Nat :=
  Nat.xor (nth A i) (Nat.xor (nth C (Nat.mod (Nat.add i 4) 5)) (natRotl (nth C (Nat.mod (Nat.add i 1) 5)) 1))

/-- `PISRC` as a list of numbers. -/
def natPiSource : List Nat := [0, 6, 12, 18, 24, 3, 9, 10, 16, 22, 1, 7, 13, 19, 20, 4, 5, 11, 17, 23, 2, 8, 14, 15, 21]

/-- `RHO` as a list of numbers. -/
def natRho : List Nat := [0, 1, 62, 28, 27, 36, 44, 6, 55, 20, 3, 10, 43, 25, 39, 41, 45, 15, 21, 8, 18, 2, 61, 56, 14]

/-- A lane of Rho and Pi on numbers. -/
noncomputable def natRhoPi (A : List Nat) (i : Nat) : Nat :=
  forced (nth natPiSource i) fun j => natRotl (nth A j) (nth natRho j)

/-- A lane of Chi on numbers. -/
noncomputable def natChi (A : List Nat) (i : Nat) : Nat :=
  forced (Nat.mul 5 (Nat.div i 5)) fun r =>
    Nat.xor (nth A i) (Nat.land (Nat.sub (Nat.pow 2 64 - 1) (nth A (Nat.add (Nat.mod (Nat.add i 1) 5) r)))
      (nth A (Nat.add (Nat.mod (Nat.add i 2) 5) r)))

/-- Iota on numbers. -/
noncomputable def natIota (A : List Nat) (rc : Nat) : List Nat := Nat.xor (nth A 0) rc :: A.tail

/-- A round on numbers, each step evaluated before the next. -/
noncomputable def natRound (rc : Nat) (A : List Nat) (k : List Nat → List Nat) : List Nat :=
  forcedList [natParity A 0, natParity A 1, natParity A 2, natParity A 3, natParity A 4] fun C =>
  forcedList (natFile (natTheta A C)) fun B =>
  forcedList (natFile (natRhoPi B)) fun D =>
  forcedList (natFile (natChi D)) fun E => k (natIota E rc)

/-- The rounds whose constants are listed, on numbers. -/
noncomputable def natRounds (rcs : List Nat) : List Nat → List Nat :=
  rcs.rec (motive := fun _ => List Nat → List Nat) (fun A => A) (fun rc _ ih A => natRound rc A ih)

theorem natTheta_eq (A : Lanes) :
    natFile (natTheta (natLanes A) [natParity (natLanes A) 0, natParity (natLanes A) 1, natParity (natLanes A) 2,
      natParity (natLanes A) 3, natParity (natLanes A) 4]) = natLanes (theta A) := by
  apply natFile_eq
  intro i
  have parity : ∀ x : Fin 5, natParity (natLanes A) x.val = (columnParity A x).toNat := by
    intro x
    have h0 := nth_natLanes A (laneIndex x 0)
    have h1 := nth_natLanes A (laneIndex x 1)
    have h2 := nth_natLanes A (laneIndex x 2)
    have h3 := nth_natLanes A (laneIndex x 3)
    have h4 := nth_natLanes A (laneIndex x 4)
    simp only [columnParity, laneAt, BitVec.toNat_xor, ← h0, ← h1, ← h2, ← h3, ← h4]
    rfl
  have pick : ∀ x : Fin 5, nth [natParity (natLanes A) 0, natParity (natLanes A) 1, natParity (natLanes A) 2,
      natParity (natLanes A) 3, natParity (natLanes A) 4] x.val = (columnParity A x).toNat := by
    intro x
    rw [← parity x]
    obtain ⟨x, hx⟩ := x
    interval_cases x <;> rfl
  have p4 := pick (columnOf i + 4)
  have p1 := pick (columnOf i + 1)
  have e4 : (columnOf i + 4).val = (i.val + 4) % 5 := by rw [Fin.val_add]; simp [columnOf]
  have e1 : (columnOf i + 1).val = (i.val + 1) % 5 := by rw [Fin.val_add]; simp [columnOf]
  rw [e4] at p4
  rw [e1] at p1
  rw [theta_lane, thetaEffect, BitVec.toNat_xor, BitVec.toNat_xor, ← natRotl_eq _ 1 (by decide), ← p4, ← p1,
    ← nth_natLanes]
  rfl

theorem natRhoPi_eq (A : Lanes) : natFile (natRhoPi (natLanes A)) = natLanes (pi (rho A)) := by
  apply natFile_eq
  intro i
  have hs : ∀ i : Fin 25, nth natPiSource i.val = (piSource[i]).val := by decide
  have hr : ∀ i : Fin 25, nth natRho i.val = rhoOffsets[i] := by decide
  have hlt : ∀ i : Fin 25, rhoOffsets[i] < 64 := by decide
  rw [pi_lane, rho_lane, natRhoPi, forced_eq, hs, hr, nth_natLanes, natRotl_eq _ _ (hlt _)]

theorem natChi_eq (A : Lanes) : natFile (natChi (natLanes A)) = natLanes (chi A) := by
  apply natFile_eq
  intro i
  have h0 := nth_natLanes A i
  have h1 := nth_natLanes A (laneIndex (columnOf i + 1) (rowOf i))
  have h2 := nth_natLanes A (laneIndex (columnOf i + 2) (rowOf i))
  have e1 : (columnOf i + 1).val = (i.val + 1) % 5 := by rw [Fin.val_add]; simp [columnOf]
  have e2 : (columnOf i + 2).val = (i.val + 2) % 5 := by rw [Fin.val_add]; simp [columnOf]
  simp only [laneIndex, e1, e2, rowOf] at h1 h2
  have here : laneAt A (columnOf i) (rowOf i) = A[i] := by
    have : laneIndex (columnOf i) (rowOf i) = i := Fin.ext (by simp only [laneIndex, columnOf, rowOf]; omega)
    simp only [laneAt, this]
  rw [chi_lane, chiLane, here, laneAt, laneAt, BitVec.toNat_xor, BitVec.toNat_and, BitVec.toNat_not, natChi, forced_eq]
  simp only [laneIndex, e1, e2, rowOf]
  rw [← h0, ← h1, ← h2]
  rfl

theorem natIota_eq (A : Lanes) (ir : Fin 24) : natIota (natLanes A) (roundConstants[ir]).toNat = natLanes (iota A ir) := by
  have h0 := nth_natLanes A 0
  have cons : ∀ l : List Nat, l ≠ [] → ∀ v, v :: l.tail = l.set 0 v := by
    intro l hl v
    cases l with
    | nil => exact absurd rfl hl
    | cons a l => rfl
  have hx : (A[0] ^^^ roundConstants[ir]).toNat = Nat.xor (nth (natLanes A) 0) (roundConstants[ir]).toNat := by
    rw [BitVec.toNat_xor]; exact congrArg (Nat.xor · _) h0.symm
  rw [natIota, cons _ (by intro h; have := congrArg List.length h; simp [natLanes] at this), ← hx, iota]
  simp [natLanes, Vector.toList_set, List.map_set]

/-- The permutation on numbers is the permutation. -/
theorem natLanes_keccakF (A : Lanes) :
    natLanes (keccakF A) = natRounds (roundConstants.toList.map BitVec.toNat) (natLanes A) := by
  have rounds : ∀ (rs : List (Fin 24)) (A : Lanes),
      natLanes (keccakRounds rs A) = natRounds (rs.map fun ir => (roundConstants[ir]).toNat) (natLanes A) := by
    intro rs
    induction rs with
    | nil => intro A; rfl
    | cons ir rs ih =>
      intro A
      rw [keccakRounds_cons, ih, keccakRound_eq, List.map_cons]
      have head : ∀ k, natRound (roundConstants[ir]).toNat (natLanes A) k = k (natLanes (iota (chi (pi (rho (theta A)))) ir)) := by
        intro k
        simp only [natRound, forcedList_eq, natTheta_eq, natRhoPi_eq, natChi_eq, natIota_eq]
      exact (head _).symm
  rw [keccakF_eq, rounds]
  rfl

theorem lanes_of_natLanes (A : Lanes) : A = Vector.ofFn fun i => BitVec.ofNat 64 (nth (natLanes A) i.val) := by
  ext i hi
  have := nth_natLanes A ⟨i, hi⟩
  simp only [Vector.getElem_ofFn, this]
  simp

/-- `keccakF`, evaluated on numbers. -/
noncomputable def keccakFOnNumbers (A : Lanes) : Lanes :=
  forcedList (natRounds (roundConstants.toList.map BitVec.toNat) (natLanes A)) fun l =>
    Vector.ofFn fun i => BitVec.ofNat 64 (nth l i.val)

theorem keccakF_on_numbers (A : Lanes) : keccakF A = keccakFOnNumbers A := by
  rw [lanes_of_natLanes (keccakF A), natLanes_keccakF, keccakFOnNumbers, forcedList_eq]

end Sys2Proof.Machine
end

