-- ==== Sys2Proof/Laws/Flags.lean ====
section
/-! SUPPORT. The STATUS word bit by bit (10_state.md R23). -/

namespace Sys2Proof.Machine

/-- Which register bit each bit of STATUS shows. -/
theorem getLsbD_statusWord (s : State) (i : Nat) :
    (statusWord s).getLsbD i =
      if i < 2 then (phaseCode s.phase).getLsbD i
      else if i = 2 then s.err
      else if i = 3 then s.busy
      else if i < 8 then s.errcode.getLsbD (i - 4)
      else if i < 16 then s.pos.getLsbD (i - 8)
      else if i < 24 then s.rate.getLsbD (i - 16)
      else if i < 31 then s.outlen.getLsbD (i - 24)
      else false := by
  have h : (statusWord s).getLsbD i = ((0#1 ++ s.outlen ++ s.rate ++ s.pos ++ s.errcode ++ BitVec.ofBool s.busy ++
      BitVec.ofBool s.err ++ phaseCode s.phase : BitVec (1 + 7 + 8 + 8 + 4 + 1 + 1 + 2))).getLsbD i := rfl
  rw [h]
  simp only [BitVec.getLsbD_append]
  by_cases h1 : i < 2
  · simp only [h1, if_true]
  by_cases h2 : i = 2
  · subst h2; simp
  by_cases h3 : i = 3
  · subst h3; simp
  have a1 : ¬ i - 2 < 1 := by omega
  have a2 : ¬ i - 2 - 1 < 1 := by omega
  simp only [h1, h2, h3, a1, a2, if_false]
  by_cases h4 : i < 8
  · simp only [h4, show i - 4 < 4 by omega, if_true, show i - 2 - 1 - 1 = i - 4 by omega]
  by_cases h5 : i < 16
  · simp only [h4, h5, show ¬ i - 2 - 1 - 1 < 4 by omega, show i - 8 < 8 by omega, if_true, if_false,
      show i - 2 - 1 - 1 - 4 = i - 8 by omega]
  by_cases h6 : i < 24
  · simp only [h4, h5, h6, show ¬ i - 2 - 1 - 1 < 4 by omega, show ¬ i - 2 - 1 - 1 - 4 < 8 by omega,
      show i - 16 < 8 by omega, if_true, if_false, show i - 2 - 1 - 1 - 4 - 8 = i - 16 by omega]
  by_cases h7 : i < 31
  · simp only [h4, h5, h6, h7, show ¬ i - 2 - 1 - 1 < 4 by omega, show ¬ i - 2 - 1 - 1 - 4 < 8 by omega,
      show ¬ i - 2 - 1 - 1 - 4 - 8 < 8 by omega, show i - 24 < 7 by omega,
      if_true, if_false, show i - 2 - 1 - 1 - 4 - 8 - 8 = i - 24 by omega]
  · simp only [h4, h5, h6, h7, show ¬ i - 2 - 1 - 1 < 4 by omega, show ¬ i - 2 - 1 - 1 - 4 < 8 by omega,
      show ¬ i - 2 - 1 - 1 - 4 - 8 < 8 by omega, show ¬ i - 2 - 1 - 1 - 4 - 8 - 8 < 7 by omega, if_false]
    simp

end Sys2Proof.Machine
end

