-- ==== Sys2Proof/Laws/State.lean ====
section
/-! SUPPORT. One lemma per field per update of State, true by unfolding, so that no later proof unfolds a record update. -/

namespace Sys2Proof.Machine

/-! ### `emit` -/

@[simp] theorem emit_lanes (s : State) (v : Byte) : (emit s v).lanes = s.lanes := rfl

@[simp] theorem emit_pos (s : State) (v : Byte) : (emit s v).pos = s.pos := rfl

@[simp] theorem emit_rate (s : State) (v : Byte) : (emit s v).rate = s.rate := rfl

@[simp] theorem emit_outlen (s : State) (v : Byte) : (emit s v).outlen = s.outlen := rfl

@[simp] theorem emit_phase (s : State) (v : Byte) : (emit s v).phase = s.phase := rfl

@[simp] theorem emit_err (s : State) (v : Byte) : (emit s v).err = s.err := rfl

@[simp] theorem emit_errcode (s : State) (v : Byte) : (emit s v).errcode = s.errcode := rfl

@[simp] theorem emit_busy (s : State) (v : Byte) : (emit s v).busy = s.busy := rfl

@[simp] theorem emit_inputs (s : State) (v : Byte) : (emit s v).inputs = s.inputs := rfl

@[simp] theorem emit_index (s : State) (v : Byte) : (emit s v).index = s.index := rfl

@[simp] theorem emit_out (s : State) (v : Byte) : (emit s v).out = s.out ++ [v] := rfl

/-! ### `permute` -/

@[simp] theorem permute_lanes (s : State) : (permute s).lanes = keccakF s.lanes := rfl

@[simp] theorem permute_pos (s : State) : (permute s).pos = s.pos := rfl

@[simp] theorem permute_rate (s : State) : (permute s).rate = s.rate := rfl

@[simp] theorem permute_outlen (s : State) : (permute s).outlen = s.outlen := rfl

@[simp] theorem permute_phase (s : State) : (permute s).phase = s.phase := rfl

@[simp] theorem permute_err (s : State) : (permute s).err = s.err := rfl

@[simp] theorem permute_errcode (s : State) : (permute s).errcode = s.errcode := rfl

@[simp] theorem permute_busy (s : State) : (permute s).busy = s.busy := rfl

@[simp] theorem permute_inputs (s : State) : (permute s).inputs = s.inputs := rfl

@[simp] theorem permute_index (s : State) : (permute s).index = s.index := rfl

@[simp] theorem permute_out (s : State) : (permute s).out = s.out := rfl

/-! ### `setPos` -/

@[simp] theorem setPos_lanes (s : State) (v : BitVec 8) : (setPos s v).lanes = s.lanes := rfl

@[simp] theorem setPos_pos (s : State) (v : BitVec 8) : (setPos s v).pos = v := rfl

@[simp] theorem setPos_rate (s : State) (v : BitVec 8) : (setPos s v).rate = s.rate := rfl

@[simp] theorem setPos_outlen (s : State) (v : BitVec 8) : (setPos s v).outlen = s.outlen := rfl

@[simp] theorem setPos_phase (s : State) (v : BitVec 8) : (setPos s v).phase = s.phase := rfl

@[simp] theorem setPos_err (s : State) (v : BitVec 8) : (setPos s v).err = s.err := rfl

@[simp] theorem setPos_errcode (s : State) (v : BitVec 8) : (setPos s v).errcode = s.errcode := rfl

@[simp] theorem setPos_busy (s : State) (v : BitVec 8) : (setPos s v).busy = s.busy := rfl

@[simp] theorem setPos_inputs (s : State) (v : BitVec 8) : (setPos s v).inputs = s.inputs := rfl

@[simp] theorem setPos_index (s : State) (v : BitVec 8) : (setPos s v).index = s.index := rfl

@[simp] theorem setPos_out (s : State) (v : BitVec 8) : (setPos s v).out = s.out := rfl

/-! ### `setPhase` -/

@[simp] theorem setPhase_lanes (s : State) (v : Phase) : (setPhase s v).lanes = s.lanes := rfl

@[simp] theorem setPhase_pos (s : State) (v : Phase) : (setPhase s v).pos = s.pos := rfl

@[simp] theorem setPhase_rate (s : State) (v : Phase) : (setPhase s v).rate = s.rate := rfl

@[simp] theorem setPhase_outlen (s : State) (v : Phase) : (setPhase s v).outlen = s.outlen := rfl

@[simp] theorem setPhase_phase (s : State) (v : Phase) : (setPhase s v).phase = v := rfl

@[simp] theorem setPhase_err (s : State) (v : Phase) : (setPhase s v).err = s.err := rfl

@[simp] theorem setPhase_errcode (s : State) (v : Phase) : (setPhase s v).errcode = s.errcode := rfl

@[simp] theorem setPhase_busy (s : State) (v : Phase) : (setPhase s v).busy = s.busy := rfl

@[simp] theorem setPhase_inputs (s : State) (v : Phase) : (setPhase s v).inputs = s.inputs := rfl

@[simp] theorem setPhase_index (s : State) (v : Phase) : (setPhase s v).index = s.index := rfl

@[simp] theorem setPhase_out (s : State) (v : Phase) : (setPhase s v).out = s.out := rfl

/-! ### `countCommand` -/

@[simp] theorem countCommand_lanes (s : State) : (countCommand s).lanes = s.lanes := rfl

@[simp] theorem countCommand_pos (s : State) : (countCommand s).pos = s.pos := rfl

@[simp] theorem countCommand_rate (s : State) : (countCommand s).rate = s.rate := rfl

@[simp] theorem countCommand_outlen (s : State) : (countCommand s).outlen = s.outlen := rfl

@[simp] theorem countCommand_phase (s : State) : (countCommand s).phase = s.phase := rfl

@[simp] theorem countCommand_err (s : State) : (countCommand s).err = s.err := rfl

@[simp] theorem countCommand_errcode (s : State) : (countCommand s).errcode = s.errcode := rfl

@[simp] theorem countCommand_busy (s : State) : (countCommand s).busy = s.busy := rfl

@[simp] theorem countCommand_inputs (s : State) : (countCommand s).inputs = s.inputs := rfl

@[simp] theorem countCommand_index (s : State) : (countCommand s).index = s.index + 1 := rfl

@[simp] theorem countCommand_out (s : State) : (countCommand s).out = s.out := rfl

/-! ### `applyReset` -/

@[simp] theorem applyReset_lanes (s : State) : (applyReset s).lanes = Vector.replicate 25 Config.resetLane := rfl

@[simp] theorem applyReset_pos (s : State) : (applyReset s).pos = 0#8 := rfl

@[simp] theorem applyReset_rate (s : State) : (applyReset s).rate = 0#8 := rfl

@[simp] theorem applyReset_outlen (s : State) : (applyReset s).outlen = 0#7 := rfl

@[simp] theorem applyReset_phase (s : State) : (applyReset s).phase = .uninit := rfl

@[simp] theorem applyReset_err (s : State) : (applyReset s).err = false := rfl

@[simp] theorem applyReset_errcode (s : State) : (applyReset s).errcode = 0#4 := rfl

@[simp] theorem applyReset_busy (s : State) : (applyReset s).busy = false := rfl

@[simp] theorem applyReset_inputs (s : State) : (applyReset s).inputs = s.inputs := rfl

@[simp] theorem applyReset_index (s : State) : (applyReset s).index = s.index := rfl

@[simp] theorem applyReset_out (s : State) : (applyReset s).out = s.out := rfl

/-! ### `offerWord` -/

@[simp] theorem offerWord_lanes (w : CommandWord) (s : State) : (offerWord w s).lanes = s.lanes := rfl

@[simp] theorem offerWord_pos (w : CommandWord) (s : State) : (offerWord w s).pos = s.pos := rfl

@[simp] theorem offerWord_rate (w : CommandWord) (s : State) : (offerWord w s).rate = s.rate := rfl

@[simp] theorem offerWord_outlen (w : CommandWord) (s : State) : (offerWord w s).outlen = s.outlen := rfl

@[simp] theorem offerWord_phase (w : CommandWord) (s : State) : (offerWord w s).phase = s.phase := rfl

@[simp] theorem offerWord_err (w : CommandWord) (s : State) : (offerWord w s).err = s.err := rfl

@[simp] theorem offerWord_errcode (w : CommandWord) (s : State) : (offerWord w s).errcode = s.errcode := rfl

@[simp] theorem offerWord_busy (w : CommandWord) (s : State) : (offerWord w s).busy = s.busy := rfl

@[simp] theorem offerWord_inputs (w : CommandWord) (s : State) : (offerWord w s).inputs = .command w :: s.inputs := rfl

@[simp] theorem offerWord_index (w : CommandWord) (s : State) : (offerWord w s).index = s.index := rfl

@[simp] theorem offerWord_out (w : CommandWord) (s : State) : (offerWord w s).out = s.out := rfl

/-! ### `initContext` -/

@[simp] theorem initContext_lanes (L : Nat) (s : State) : (initContext L s).lanes = zeroLanes := rfl

@[simp] theorem initContext_pos (L : Nat) (s : State) : (initContext L s).pos = 0#8 := rfl

@[simp] theorem initContext_rate (L : Nat) (s : State) : (initContext L s).rate = rateOf L := rfl

@[simp] theorem initContext_outlen (L : Nat) (s : State) : (initContext L s).outlen = outlenOf L := rfl

@[simp] theorem initContext_phase (L : Nat) (s : State) : (initContext L s).phase = .initialized := rfl

@[simp] theorem initContext_err (L : Nat) (s : State) : (initContext L s).err = s.err := rfl

@[simp] theorem initContext_errcode (L : Nat) (s : State) : (initContext L s).errcode = s.errcode := rfl

@[simp] theorem initContext_busy (L : Nat) (s : State) : (initContext L s).busy = s.busy := rfl

@[simp] theorem initContext_inputs (L : Nat) (s : State) : (initContext L s).inputs = s.inputs := rfl

@[simp] theorem initContext_index (L : Nat) (s : State) : (initContext L s).index = s.index := rfl

@[simp] theorem initContext_out (L : Nat) (s : State) : (initContext L s).out = s.out := rfl

/-! ### `busyRegs` -/

@[simp] theorem busyRegs_lanes (s : State) : (busyRegs s).lanes = s.lanes := rfl

@[simp] theorem busyRegs_pos (s : State) : (busyRegs s).pos = s.pos := rfl

@[simp] theorem busyRegs_rate (s : State) : (busyRegs s).rate = s.rate := rfl

@[simp] theorem busyRegs_outlen (s : State) : (busyRegs s).outlen = s.outlen := rfl

@[simp] theorem busyRegs_phase (s : State) : (busyRegs s).phase = s.phase := rfl

@[simp] theorem busyRegs_err (s : State) : (busyRegs s).err = s.err := rfl

@[simp] theorem busyRegs_errcode (s : State) : (busyRegs s).errcode = s.errcode := rfl

@[simp] theorem busyRegs_busy (s : State) : (busyRegs s).busy = true := rfl

@[simp] theorem busyRegs_inputs (s : State) : (busyRegs s).inputs = s.inputs := rfl

@[simp] theorem busyRegs_index (s : State) : (busyRegs s).index = s.index + 1 := rfl

@[simp] theorem busyRegs_out (s : State) : (busyRegs s).out = s.out := rfl

/-! ### `advancePos`: only POS and the lanes change -/

@[simp] theorem advancePos_rate (s : State) : (advancePos s).rate = s.rate := by
  unfold advancePos; split <;> rfl

@[simp] theorem advancePos_outlen (s : State) : (advancePos s).outlen = s.outlen := by
  unfold advancePos; split <;> rfl

@[simp] theorem advancePos_phase (s : State) : (advancePos s).phase = s.phase := by
  unfold advancePos; split <;> rfl

@[simp] theorem advancePos_err (s : State) : (advancePos s).err = s.err := by
  unfold advancePos; split <;> rfl

@[simp] theorem advancePos_errcode (s : State) : (advancePos s).errcode = s.errcode := by
  unfold advancePos; split <;> rfl

@[simp] theorem advancePos_busy (s : State) : (advancePos s).busy = s.busy := by
  unfold advancePos; split <;> rfl

@[simp] theorem advancePos_inputs (s : State) : (advancePos s).inputs = s.inputs := by
  unfold advancePos; split <;> rfl

@[simp] theorem advancePos_index (s : State) : (advancePos s).index = s.index := by
  unfold advancePos; split <;> rfl

@[simp] theorem advancePos_out (s : State) : (advancePos s).out = s.out := by
  unfold advancePos; split <;> rfl

/-! ### `raise`: only ERR and ERRCODE change -/

@[simp] theorem raise_lanes (m : Misuse) (s : State) : (raise m s).lanes = s.lanes := by
  unfold raise; split <;> rfl

@[simp] theorem raise_pos (m : Misuse) (s : State) : (raise m s).pos = s.pos := by
  unfold raise; split <;> rfl

@[simp] theorem raise_rate (m : Misuse) (s : State) : (raise m s).rate = s.rate := by
  unfold raise; split <;> rfl

@[simp] theorem raise_outlen (m : Misuse) (s : State) : (raise m s).outlen = s.outlen := by
  unfold raise; split <;> rfl

@[simp] theorem raise_phase (m : Misuse) (s : State) : (raise m s).phase = s.phase := by
  unfold raise; split <;> rfl

@[simp] theorem raise_busy (m : Misuse) (s : State) : (raise m s).busy = s.busy := by
  unfold raise; split <;> rfl

@[simp] theorem raise_inputs (m : Misuse) (s : State) : (raise m s).inputs = s.inputs := by
  unfold raise; split <;> rfl

@[simp] theorem raise_index (m : Misuse) (s : State) : (raise m s).index = s.index := by
  unfold raise; split <;> rfl

@[simp] theorem raise_out (m : Misuse) (s : State) : (raise m s).out = s.out := by
  unfold raise; split <;> rfl

@[simp] theorem raise_err (m : Misuse) (s : State) : (raise m s).err = true := by
  unfold raise; split <;> simp_all

theorem raise_of_not_err (m : Misuse) {s : State} (h : s.err = false) :
    raise m s = { s with err := true, errcode := misuseCode m } := by
  simp [raise, h]

theorem raise_of_err (m : Misuse) {s : State} (h : s.err = true) : raise m s = s := by
  simp [raise, h]

end Sys2Proof.Machine
end

