-- ==== Sys2Proof/Laws/Ops.lean ====
section
/-! SUPPORT. For each shared operation, once, everything it can do: its result inside its range, and what an answer of it tells.
Later proofs cite these and do not unfold the operation. -/

namespace Sys2Proof.Machine

/-! ### State bytes -/

theorem memRead_ok (s : State) {b : Nat} (h : b < 200) : memRead s b = .ok (byteAt s.lanes ⟨b, h⟩) := by
  simp [memRead, h]

theorem memRead_out (s : State) {b : Nat} (h : ¬ b < 200) : memRead s b = .error (.noSuchStateByte b) := by
  simp [memRead, h]

theorem memWrite_ok (s : State) {b : Nat} (v : Byte) (h : b < 200) :
    memWrite s b v = .ok { s with lanes := setByteAt s.lanes ⟨b, h⟩ v } := by
  simp [memWrite, h]

theorem memWrite_out (s : State) {b : Nat} (v : Byte) (h : ¬ b < 200) :
    memWrite s b v = .error (.noSuchStateByte b) := by
  simp [memWrite, h]

/-- The lane file with byte `b` XORed with `v`. -/
def xorByteAt (A : Lanes) (b : Fin 200) (v : Byte) : Lanes := setByteAt A b (byteAt A b ^^^ v)

theorem byteAt_xorByteAt (A : Lanes) (b c : Fin 200) (v : Byte) :
    byteAt (xorByteAt A b v) c = if c = b then byteAt A c ^^^ v else byteAt A c := by
  unfold xorByteAt
  rw [byteAt_setByteAt]
  split
  · next h => rw [h]
  · rfl

theorem xorByte_ok (s : State) {b : Nat} (v : Byte) (h : b < 200) :
    xorByte s b v = .ok { s with lanes := xorByteAt s.lanes ⟨b, h⟩ v } := by
  simp [xorByte, memRead_ok s h, memWrite_ok s _ h, xorByteAt]

theorem xorByte_inv {s t : State} {b : Nat} {v : Byte} (h : xorByte s b v = .ok t) :
    ∃ hb : b < 200, t = { s with lanes := xorByteAt s.lanes ⟨b, hb⟩ v } := by
  by_cases hb : b < 200
  · rw [xorByte_ok s v hb] at h
    exact ⟨hb, (Except.ok.inj h).symm⟩
  · simp [xorByte, memRead_out s hb] at h

/-! ### Padding -/

/-- The two padding bytes XORed in, in the order of 41_sponge.md R75. -/
theorem pad_ok (suffix : Byte) (s : State) (hp : posIndex s < 200) (hr : lastRateIndex s < 200) :
    pad suffix s = .ok { s with
      lanes := xorByteAt (xorByteAt s.lanes ⟨posIndex s, hp⟩ suffix) ⟨lastRateIndex s, hr⟩ endOfBlock } := by
  simp only [pad, xorByte_ok s suffix hp]
  exact xorByte_ok _ _ hr

theorem pad_inv {suffix : Byte} {s t : State} (h : pad suffix s = .ok t) : ∃ A, t = { s with lanes := A } := by
  unfold pad at h
  split at h
  · next u hu =>
    obtain ⟨_, rfl⟩ := xorByte_inv hu
    obtain ⟨_, rfl⟩ := xorByte_inv h
    exact ⟨_, rfl⟩
  · cases h

/-! ### Output -/

/-- Emitting from `k` up appends that slice of the byte view. -/
theorem emitBytesFrom_ok (n : Nat) : ∀ (k : Nat) (s : State), k + n ≤ 200 →
    emitBytesFrom k n s =
      .ok { s with out := s.out ++ ((bytesOfLanes s.lanes).toList.drop k).take n } := by
  induction n with
  | zero => intro k s _; simp [emitBytesFrom]
  | succ n ih =>
    intro k s hk
    have hlt : k < 200 := by omega
    have hcons : (bytesOfLanes s.lanes).toList.drop k =
        byteAt s.lanes ⟨k, hlt⟩ :: (bytesOfLanes s.lanes).toList.drop (k + 1) := by
      rw [List.drop_eq_getElem_cons (by rw [Vector.length_toList]; exact hlt), Vector.getElem_toList,
        getElem_bytesOfLanes]
    simp only [emitBytesFrom, memRead_ok s hlt]
    rw [ih (k + 1) _ (by omega), hcons]
    simp [emit]

theorem emitBytesFrom_inv {n : Nat} : ∀ {k : Nat} {s t : State}, emitBytesFrom k n s = .ok t →
    ∃ bs, bs.length = n ∧ t = { s with out := s.out ++ bs } := by
  induction n with
  | zero =>
    intro k s t h
    cases h
    exact ⟨[], rfl, by simp⟩
  | succ n ih =>
    intro k s t h
    unfold emitBytesFrom at h
    split at h
    · next b _ =>
      obtain ⟨bs, hlen, rfl⟩ := ih h
      exact ⟨b :: bs, by simp [hlen], by simp [emit]⟩
    · cases h

/-! ### POS -/

theorem advancePos_inside {s : State} (h : s.pos + 1#8 ≠ s.rate) : advancePos s = setPos s (s.pos + 1#8) := by
  simp [advancePos, h]

theorem advancePos_boundary {s : State} (h : s.pos + 1#8 = s.rate) : advancePos s = setPos (permute s) 0#8 := by
  simp [advancePos, h]

/-- `advancePos` changes POS and the lanes at most. -/
theorem advancePos_frame (s : State) :
    advancePos s = { s with lanes := (advancePos s).lanes, pos := (advancePos s).pos } := by
  unfold advancePos
  split <;> rfl

/-- POS + 1 does not wrap below the rate (41_sponge.md R84). -/
theorem pos_succ_toNat {s : State} (h : s.pos.toNat < s.rate.toNat) : (s.pos + 1#8).toNat = s.pos.toNat + 1 := by
  have := s.rate.isLt
  rw [BitVec.toNat_add]
  simp
  omega

/-- After `advancePos`, POS is below the rate again: the eager permutation of 41_sponge.md R77. -/
theorem advancePos_pos_lt {s : State} (h : s.pos.toNat < s.rate.toNat) :
    (advancePos s).pos.toNat < (advancePos s).rate.toNat := by
  by_cases hb : s.pos + 1#8 = s.rate
  · rw [advancePos_boundary hb]
    simp
    omega
  · rw [advancePos_inside hb]
    have hs := pos_succ_toNat h
    have hne : (s.pos + 1#8).toNat ≠ s.rate.toNat := fun he => hb (BitVec.eq_of_toNat_eq he)
    simp only [setPos_pos, setPos_rate]
    omega

/-! ### SQUEEZE's loop -/

theorem squeezeByte_ok {s : State} (h : posIndex s < 200) :
    squeezeByte s = .ok (advancePos (emit s (byteAt s.lanes ⟨posIndex s, h⟩))) := by
  simp [squeezeByte, memRead_ok s h]

theorem squeezeByte_inv {s t : State} (h : squeezeByte s = .ok t) :
    ∃ hb : posIndex s < 200, t = advancePos (emit s (byteAt s.lanes ⟨posIndex s, hb⟩)) := by
  by_cases hb : posIndex s < 200
  · rw [squeezeByte_ok hb] at h
    exact ⟨hb, (Except.ok.inj h).symm⟩
  · simp [squeezeByte, memRead_out s hb] at h

/-- A squeeze changes the lanes, POS and the output stream at most, and appends exactly `n` bytes. -/
theorem squeezeBytes_inv {n : Nat} : ∀ {s t : State}, squeezeBytes n s = .ok t →
    ∃ A p bs, bs.length = n ∧ t = { s with lanes := A, pos := p, out := s.out ++ bs } := by
  induction n with
  | zero =>
    intro s t h
    cases h
    exact ⟨s.lanes, s.pos, [], rfl, by simp⟩
  | succ n ih =>
    intro s t h
    unfold squeezeBytes at h
    split at h
    · next u hu =>
      obtain ⟨hb, rfl⟩ := squeezeByte_inv hu
      obtain ⟨A, p, bs, hlen, rfl⟩ := ih h
      exact ⟨A, p, byteAt s.lanes ⟨posIndex s, hb⟩ :: bs, by simp [hlen], by simp⟩
    · cases h

theorem squeezeBytes_zero (s : State) : squeezeBytes 0 s = .ok s := rfl

theorem squeezeBytes_succ (n : Nat) (s : State) :
    squeezeBytes (n + 1) s =
      match squeezeByte s with
      | .ok t => squeezeBytes n t
      | .error f => .error f := rfl

/-- A squeeze of `m + n` bytes is a squeeze of `m` and then one of `n` (the loop body depends on the state alone). -/
theorem squeezeBytes_add (m n : Nat) : ∀ s : State,
    squeezeBytes (m + n) s =
      match squeezeBytes m s with
      | .ok t => squeezeBytes n t
      | .error f => .error f := by
  induction m with
  | zero => intro s; simp [squeezeBytes_zero]
  | succ m ih =>
    intro s
    rw [Nat.succ_add, squeezeBytes_succ, squeezeBytes_succ]
    cases squeezeByte s with
    | ok t => exact ih t
    | error f => rfl

/-! ### Outcomes -/

@[simp] theorem outcomeOf_ok (t : State) : outcomeOf (.ok t) = .next t := rfl

theorem outcomeOf_next {e : Except Fault State} {t : State} (h : outcomeOf e = .next t) : e = .ok t := by
  cases e with
  | ok u => simpa using h
  | error f => simp [outcomeOf] at h

@[simp] theorem checked_none (s : State) (e : Except Fault State) : checked none s e = outcomeOf e := rfl

@[simp] theorem checked_some (m : Misuse) (s : State) (e : Except Fault State) :
    checked (some m) s e = .next (raise m s) := rfl

/-- A checked command that answers a next state took the fault entry or had its effect. -/
theorem checked_next {misuse : Option Misuse} {s t : State} {e : Except Fault State}
    (h : checked misuse s e = .next t) :
    (∃ m, misuse = some m ∧ t = raise m s) ∨ (misuse = none ∧ e = .ok t) := by
  cases misuse with
  | none => exact .inr ⟨rfl, outcomeOf_next h⟩
  | some m =>
    simp at h
    exact .inl ⟨m, rfl, h.symm⟩

end Sys2Proof.Machine
end

