-- ==== Sys2Proof/Laws/PerInstr.lean ====
section
/-! SUPPORT. Per-instruction families: one lemma per constructor of Instr. -/

namespace Sys2Proof.Laws.ReservedBitsZero

/-- RSV "must be 0 in every command" (30_encoding.md R48). -/
def Statement (i : Instr) : Prop := reservedField (encode i) = 0#4

theorem reservedField_commandWord (opc : BitVec 4) (imm : Byte) : reservedField (commandWord opc imm) = 0#4 := by
  apply BitVec.eq_of_getLsbD_eq
  intro i hi
  have low : (commandWord opc imm).getLsbD (8 + i) = (opc ++ 0#4).getLsbD i := by
    refine (BitVec.getLsbD_append (x := opc ++ 0#4) (y := imm)).trans ?_
    simp
  have mid : (opc ++ 0#4).getLsbD i = (0#4).getLsbD i := by
    rw [BitVec.getLsbD_append]
    simp [hi]
  rw [reservedField, BitVec.getLsbD_extractLsb', low, mid]
  simp

theorem init (L : Nat) : Statement (.init L) := reservedField_commandWord _ _

theorem absorb (m : Byte) : Statement (.absorb m) := reservedField_commandWord _ _

theorem final : Statement .final := reservedField_commandWord _ _

theorem xof : Statement .xof := reservedField_commandWord _ _

theorem squeeze (n : Nat) : Statement (.squeeze n) := reservedField_commandWord _ _

end Sys2Proof.Laws.ReservedBitsZero
end

