-- ==== Sys2Proof/Laws/Step.lean ====
section
/-! SUPPORT. What each command, one accepted word and one step can do, said once. -/

namespace Sys2Proof.Machine

/-! ### The commands -/

theorem execInit_next {L : Nat} {s t : State} (h : execInit L s = .next t) :
    (100 ≤ L ∧ t = raise .badOutlen s) ∨ (L < 100 ∧ t = initContext L s) := by
  rcases checked_next h with ⟨m, hm, rfl⟩ | ⟨hm, ht⟩
  · unfold initMisuse at hm
    split at hm
    · next hL => cases hm; exact .inl ⟨hL, rfl⟩
    · cases hm
  · unfold initMisuse at hm
    split at hm
    · cases hm
    · next hL => exact .inr ⟨by omega, (Except.ok.inj ht).symm⟩

theorem absorbByte_inv {m : Byte} {s t : State} (h : absorbByte m s = .ok t) :
    ∃ hb : posIndex s < 200, t = advancePos { s with lanes := xorByteAt s.lanes ⟨posIndex s, hb⟩ m } := by
  unfold absorbByte at h
  split at h
  · next u hu =>
    obtain ⟨hb, rfl⟩ := xorByte_inv hu
    exact ⟨hb, (Except.ok.inj h).symm⟩
  · cases h

theorem absorbByte_ok (m : Byte) {s : State} (hb : posIndex s < 200) :
    absorbByte m s = .ok (advancePos { s with lanes := xorByteAt s.lanes ⟨posIndex s, hb⟩ m }) := by
  simp [absorbByte, xorByte_ok s m hb]

theorem finalDigest_inv {s t : State} (h : finalDigest s = .ok t) :
    ∃ A bs, bs.length = s.outlen.toNat ∧
      t = { s with lanes := A, phase := .finalized, out := s.out ++ bs } := by
  unfold finalDigest at h
  split at h
  · next u hu =>
    obtain ⟨A, rfl⟩ := pad_inv hu
    split at h
    · next v hv =>
      obtain ⟨bs, hlen, rfl⟩ := emitBytesFrom_inv hv
      exact ⟨keccakF A, bs, hlen, (Except.ok.inj h).symm⟩
    · cases h
  · cases h

theorem xofFinalize_inv {s t : State} (h : xofFinalize s = .ok t) :
    ∃ A, t = { s with lanes := A, pos := 0#8, phase := .squeezeReady } := by
  unfold xofFinalize at h
  split at h
  · next u hu =>
    obtain ⟨A, rfl⟩ := pad_inv hu
    exact ⟨keccakF A, (Except.ok.inj h).symm⟩
  · cases h

/-- Everything a command that answers a next state can have done: the fault entry, or its effect in the phase that allows it. -/
theorem exec_next {i : Instr} {s t : State} (h : exec i s = .next t) :
    (∃ m, t = raise m s) ∨
    (∃ L, i = .init L ∧ L < 100 ∧ t = initContext L s) ∨
    (∃ m, i = .absorb m ∧ s.phase = .initialized ∧ absorbByte m s = .ok t) ∨
    (i = .final ∧ s.phase = .initialized ∧ finalDigest s = .ok t) ∨
    (i = .xof ∧ s.phase = .initialized ∧ xofFinalize s = .ok t) ∨
    (∃ n, i = .squeeze n ∧ s.phase = .squeezeReady ∧ squeezeBytes n s = .ok t) := by
  cases i with
  | init L =>
    rcases execInit_next h with ⟨_, rfl⟩ | ⟨hL, rfl⟩
    · exact .inl ⟨_, rfl⟩
    · exact .inr (.inl ⟨L, rfl, hL, rfl⟩)
  | absorb m =>
    rcases checked_next h with ⟨k, _, rfl⟩ | ⟨hm, ht⟩
    · exact .inl ⟨k, rfl⟩
    · have hp : s.phase = .initialized := by cases hp : s.phase <;> simp_all [absorbMisuse]
      exact .inr (.inr (.inl ⟨m, rfl, hp, ht⟩))
  | final =>
    rcases checked_next h with ⟨k, _, rfl⟩ | ⟨hm, ht⟩
    · exact .inl ⟨k, rfl⟩
    · have hp : s.phase = .initialized := by cases hp : s.phase <;> simp_all [finalMisuse]
      exact .inr (.inr (.inr (.inl ⟨rfl, hp, ht⟩)))
  | xof =>
    rcases checked_next h with ⟨k, _, rfl⟩ | ⟨hm, ht⟩
    · exact .inl ⟨k, rfl⟩
    · have hp : s.phase = .initialized := by cases hp : s.phase <;> simp_all [xofMisuse]
      exact .inr (.inr (.inr (.inr (.inl ⟨rfl, hp, ht⟩))))
  | squeeze n =>
    rcases checked_next h with ⟨k, _, rfl⟩ | ⟨hm, ht⟩
    · exact .inl ⟨k, rfl⟩
    · have hp : s.phase = .squeezeReady := by cases hp : s.phase <;> simp_all [squeezeMisuse]
      exact .inr (.inr (.inr (.inr (.inr ⟨n, rfl, hp, ht⟩))))

/-! ### One accepted word, one step -/

theorem accept_locked (w : CommandWord) {s : State} (h : s.err = true) : accept w s = .next (countCommand s) := by
  simp [accept, h]

theorem accept_decoded {w : CommandWord} {i : Instr} {s : State} (h : s.err = false) (hd : decode w = .ok i) :
    accept w s = exec i (countCommand s) := by
  simp [accept, h, hd]

theorem accept_illegal {w : CommandWord} {e : IllegalWord} {s : State} (h : s.err = false) (hd : decode w = .error e) :
    accept w s = .next (raise .badCommand (countCommand s)) := by
  simp [accept, h, hd]

/-- The three cases of one accepted word (41_sponge.md R72). -/
theorem accept_next {w : CommandWord} {s t : State} (h : accept w s = .next t) :
    (s.err = true ∧ t = countCommand s) ∨
    (s.err = false ∧ (∃ e, decode w = .error e) ∧ t = raise .badCommand (countCommand s)) ∨
    (s.err = false ∧ ∃ i, decode w = .ok i ∧ exec i (countCommand s) = .next t) := by
  cases he : s.err with
  | true =>
    rw [accept_locked w he] at h
    cases h
    exact .inl ⟨rfl, rfl⟩
  | false =>
    cases hd : decode w with
    | error e =>
      rw [accept_illegal he hd] at h
      cases h
      exact .inr (.inl ⟨rfl, ⟨e, rfl⟩, rfl⟩)
    | ok i =>
      rw [accept_decoded he hd] at h
      exact .inr (.inr ⟨rfl, i, rfl, h⟩)

/-- The three cases of one step: idle, one accepted word, reset. -/
theorem step_cases {s t : State} (h : step s = .next t) :
    (s.inputs = [] ∧ t = s) ∨
    (∃ w rest, s.inputs = .command w :: rest ∧ accept w { s with inputs := rest } = .next t) ∨
    (∃ rest, s.inputs = .reset :: rest ∧ t = applyReset { s with inputs := rest }) := by
  unfold step at h
  split at h
  · next hi =>
    cases h
    exact .inl ⟨hi, rfl⟩
  · next i rest hi =>
    cases i with
    | command w => exact .inr (.inl ⟨w, rest, hi, h⟩)
    | reset =>
      cases h
      exact .inr (.inr ⟨rest, hi, rfl⟩)

end Sys2Proof.Machine
end

