-- ==== Sys2Proof/Laws/Ports.lean ====
section
/-! SUPPORT. What a cycle at the pins can do: one lemma per function of Machine/Ports.lean. -/

namespace Sys2Proof.Machine

/-- A command in flight gives its bytes from the front: what is transferred, then what is left. -/
theorem transferredBytes_append (p : InputPins) (j : Job) : transferredBytes p j ++ (advanceJob p j).bytes = j.bytes := by
  obtain ⟨wait, bytes, result⟩ := j
  cases bytes with
  | nil => cases h : p.outReady <;> simp [transferredBytes, advanceJob, offeredByte, h]
  | cons b bytes =>
    by_cases hw : wait ≤ bytes.length + 1 <;> cases h : p.outReady <;> simp [transferredBytes, advanceJob, offeredByte, h, hw]

@[simp] theorem advanceJob_result (p : InputPins) (j : Job) : (advanceJob p j).result = j.result := rfl

@[simp] theorem advanceJob_wait (p : InputPins) (j : Job) : (advanceJob p j).wait = j.wait - 1 := rfl

@[simp] theorem transferredBytes_stalled {p : InputPins} (h : p.outReady = false) (j : Job) : transferredBytes p j = [] := by
  simp [transferredBytes, h]

/-- A command in flight completes, or goes on with its transferred bytes in the output stream. -/
theorem runJob_cases (p : InputPins) (s : PortState) (j : Job) :
    ((advanceJob p j).wait = 0 ∧ (advanceJob p j).bytes = [] ∧ runJob p s j = ⟨j.result, none, waitingWord p⟩) ∨
    (¬ ((advanceJob p j).wait = 0 ∧ (advanceJob p j).bytes = []) ∧
      runJob p s j = ⟨{ s.regs with out := s.regs.out ++ transferredBytes p j }, some (advanceJob p j), waitingWord p⟩) := by
  by_cases h : (advanceJob p j).wait = 0 ∧ (advanceJob p j).bytes = []
  · exact .inl ⟨h.1, h.2, by simp only [runJob, h, and_self, if_true]⟩
  · exact .inr ⟨h, by simp only [runJob, h, if_false]⟩

/-- A locked core discards the word; any other core puts its command in flight. -/
theorem startJob_next {w : CommandWord} {s : State} {t : PortState} (h : startJob w s = .next t) :
    (s.err = true ∧ t = ⟨countCommand s, none, none⟩) ∨
    (s.err = false ∧ ∃ r, accept w s = .next r ∧
      t = ⟨busyRegs s, some ⟨Config.cmdLatency w (statusWord s), r.out.drop s.out.length, r⟩, none⟩) := by
  unfold startJob at h
  split at h
  · next he => cases h; exact .inl ⟨he, rfl⟩
  · next he =>
    split at h
    · next r hr => cases h; exact .inr ⟨by simpa using he, r, hr, rfl⟩
    · cases h
    · cases h

/-- A cycle that has a next state keeps the offered word and is a reset, a cycle of the command in flight, an acceptance or an
idle cycle. -/
theorem tick_cases {p : InputPins} {s t : PortState} (h : tick p s = .next t) :
    changesOffered p s = false ∧
    ((p.rst = true ∧ t = ⟨applyReset s.regs, none, waitingWord p⟩) ∨
      (p.rst = false ∧ ∃ j, s.job = some j ∧ t = runJob p s j) ∨
      (p.rst = false ∧ s.job = none ∧ p.cmdValid = true ∧ startJob p.cmdData s.regs = .next t) ∨
      (p.rst = false ∧ s.job = none ∧ p.cmdValid = false ∧ t = { s with offered := none })) := by
  unfold tick at h
  split at h
  · cases h
  next hc =>
  refine ⟨by simpa using hc, ?_⟩
  split at h
  · next hr => cases h; exact .inl ⟨hr, rfl⟩
  next hr =>
  have hr : p.rst = false := by simpa using hr
  split at h
  · next j hj => cases h; exact .inr (.inl ⟨hr, j, hj, rfl⟩)
  next hj =>
  split at h
  · next hv => exact .inr (.inr (.inl ⟨hr, hj, hv, h⟩))
  · next hv => cases h; exact .inr (.inr (.inr ⟨hr, hj, by simpa using hv, rfl⟩))

end Sys2Proof.Machine
end

