-- ==== Sys2Proof/Tests/Slice0.lean ====
section
/-! SUPPORT. Tests of the model, and a witness for the hypotheses of every statement that has some. Every expected value comes
from spec/: the vectors of 95_test_vectors.md (cited by their ids V-… and W…) or the examples of the rules. -/

namespace Sys2Proof.Tests

open Sys2Proof Sys2Proof.Machine

/-- A context after `INIT L`, with POS and PHASE as given and zero lanes. -/
def ctx (L pos : Nat) (phase : Phase) : State :=
  { State.reset with
    lanes := zeroLanes, rate := rateOf L, outlen := outlenOf L, pos := BitVec.ofNat 8 pos, phase := phase }

/-- `ctx` with the first lane given. -/
def ctxWith (L pos : Nat) (phase : Phase) (lane0 : Lane) : State :=
  { ctx L pos phase with lanes := zeroLanes.set 0 lane0 }

/-- The outcome is a next state with a property. -/
def nextAnd (o : Host.Outcome State Fault Refusal) (p : State → Bool) : Bool :=
  match o with
  | .next t => p t
  | .fault _ => false
  | .refused _ => false

theorem nextAnd_iff {o : Host.Outcome State Fault Refusal} {p : State → Bool} :
    nextAnd o p = true ↔ ∃ t, o = .next t ∧ p t = true := by
  cases o <;> simp [nextAnd]

theorem exists_next {o : Host.Outcome State Fault Refusal} (h : nextAnd o (fun _ => true) = true) : ∃ t, o = .next t := by
  obtain ⟨t, h, -⟩ := nextAnd_iff.mp h
  exact ⟨t, h⟩

/-! ### WellFormed: ill-formed terms are refused (30_encoding.md R55) -/

theorem test_wellFormed_init_256 : (Instr.init 256).wellFormed = false := by decide

theorem test_wellFormed_squeeze_256 : (Instr.squeeze 256).wellFormed = false := by decide

theorem test_wellFormed_boundaries :
    (Instr.init 255).wellFormed = true ∧ (Instr.squeeze 255).wellFormed = true ∧ (Instr.absorb 0xFF#8).wellFormed = true := by
  decide

/-! ### Decode: words written out bit by bit from 30_encoding.md R48 to R51, and vectors V-D -/

theorem test_decode_init : decode 0b0001_0000_01100011#16 = .ok (.init 99) := by rfl

theorem test_decode_absorb : decode 0b0010_0000_11111111#16 = .ok (.absorb 0xFF#8) := by rfl

theorem test_decode_final : decode 0b0011_0000_00000000#16 = .ok .final := by rfl

theorem test_decode_xof : decode 0b0100_0000_00000000#16 = .ok .xof := by rfl

theorem test_decode_squeeze : decode 0b0101_0000_11111111#16 = .ok (.squeeze 255) := by rfl

/-- V-D: the Illegal boundary words. -/
theorem test_decode_illegal :
    decode 0x0000#16 = .error .reservedOpcode ∧ decode 0x1120#16 = .error .reservedBits ∧
    decode 0x3001#16 = .error .operandInFormatN ∧ decode 0x4080#16 = .error .operandInFormatN ∧
    decode 0x5F00#16 = .error .reservedBits ∧ decode 0x6000#16 = .error .reservedOpcode ∧
    decode 0xF000#16 = .error .reservedOpcode ∧ decode 0xFFFF#16 = .error .reservedBits :=
  ⟨rfl, rfl, rfl, rfl, rfl, rfl, rfl, rfl⟩

/-- The words of 95_test_vectors.md W1, W2 and P1. -/
theorem test_encode :
    encode (.init 32) = 0x1020#16 ∧ encode (.absorb 0x61#8) = 0x2061#16 ∧ encode .final = 0x3000#16 ∧
    encode .xof = 0x4000#16 ∧ encode (.squeeze 16) = 0x5010#16 := by decide

theorem test_decodeTableWord : decodeTableWord 16 0x1020 = some (.init 32) ∧ decodeTableWord 16 0x0000 = none := by
  constructor <;> rfl

/-! ### The assembler (30_encoding.md R55, R56) -/

/-- The first line of program P1, with its comment. -/
theorem test_assemble_p1_line : assembleLine "INIT_SHA3_256        ; INIT 32   0x1020".toList = .ok [.init 32] := by
  decide +kernel

/-- R56: SQUEEZEN 300 is one full SQUEEZE 255 and the rest. -/
theorem test_assemble_squeezen : assembleLine "SQUEEZEN 300".toList = .ok [.squeeze 255, .squeeze 45] := by
  decide +kernel

/-- R55: an operand outside 0..255 is refused. -/
theorem test_assemble_out_of_range : assembleLine "INIT 256".toList = .error .operandOutOfRange := by decide +kernel

/-- Log entry 17: the two shorthands of programs P3 and P6, which R55 and R56 do not define, are refused. -/
theorem test_assemble_shorthands_refused :
    assembleLine "ABSORBS 0x00 × 136   ; 136 × 0x2000".toList = .error .notANumber ∧
    assembleLine "ABSORB b for b = 0..199 (word 0x2000 | b)".toList = .error .unexpectedOperand := by
  decide +kernel

/-! ### STATUS after INIT (W3) and misuse (V-I, V-A, V-F, V-X, V-S, V-E) -/

/-- V-I3: INIT 99. -/
theorem test_init_99 : nextAnd (accept 0x1063#16 State.reset) (fun t => statusWord t == 0x63020001#32) = true := by
  decide +kernel

/-- V-I4: INIT 100 faults BAD_OUTLEN. -/
theorem test_init_100 : nextAnd (accept 0x1064#16 State.reset) (fun t => statusWord t == 0x00000064#32) = true := by
  decide +kernel

/-- V-A1: STATUS, and the byte XORed in at POS 0. -/
theorem test_absorb_first_byte :
    nextAnd (accept 0x2061#16 (ctx 32 0 .initialized))
      (fun t => statusWord t == 0x20880101#32 && t.lanes[0] == 0x61#64) = true := by
  decide +kernel

/-- V-A3: the byte that fills a block of RATE 2 permutes; the state is INIT 99 with 0x01 absorbed. The first lane before the
permutation is 0x0201. -/
theorem test_absorb_fills_block :
    nextAnd (accept 0x2002#16 (ctxWith 99 1 .initialized 0x01#64))
      (fun t => statusWord t == 0x63020001#32) = true := by
  decide +kernel

/-- V-F5, P1: SHA3-256("abc"), the FINAL step. -/
theorem test_final_sha3_256_abc :
    nextAnd (exec .final (ctxWith 32 3 .initialized 0x636261#64)) (fun t => statusWord t == 0x20880302#32 && t.out ==
      [0x3a, 0x98, 0x5d, 0xa7, 0x4f, 0xe2, 0x25, 0xb2, 0x04, 0x5c, 0x17, 0x2d, 0x6b, 0xd3, 0x90, 0xbd,
       0x85, 0x5f, 0x08, 0x6e, 0x3e, 0x9d, 0x52, 0x5b, 0x46, 0xbf, 0xe2, 0x45, 0x11, 0x43, 0x15, 0x32]) = true := by
  simp only [exec, execFinal, finalDigest, permute, keccakF_on_numbers]
  decide +kernel

/-- V-F7: FINAL at POS = RATE − 1, where both padding bytes meet on one byte: the first four bytes and the count. -/
theorem test_final_both_pads_on_one_byte :
    nextAnd (exec .final (ctxWith 99 1 .initialized 0xAA#64)) (fun t => statusWord t == 0x63020102#32 &&
      t.out.length == 99 && t.out.take 4 == [0x0d, 0x8e, 0xfc, 0x3c] && t.out.drop 96 == [0x25, 0xcb, 0x31]) = true := by
  simp only [exec, execFinal, finalDigest, permute, keccakF_on_numbers]
  decide +kernel

/-- W2, V-X1: XOF after INIT 16; the 16 bytes that SQUEEZE 16 would emit stand in lanes 0 and 1, least significant first. -/
theorem test_xof_shake128 :
    nextAnd (exec .xof (ctx 16 0 .initialized)) (fun t => statusWord t == 0x10A80003#32 && t.out == [] &&
      t.lanes[0] == 0x7d828fe8a42b9c7f#64 && t.lanes[1] == 0x3e85057650456061#64) = true := by
  simp only [exec, execXof, xofFinalize, permute, keccakF_on_numbers]
  decide +kernel

/-- V-X2: XOF twice is DOUBLE_FINALIZE. -/
theorem test_xof_twice :
    nextAnd (accept 0x4000#16 (ctx 16 0 .squeezeReady)) (fun t => statusWord t == 0x10A80047#32) = true := by
  decide +kernel

/-- 41_sponge.md R77 with V-P8: SQUEEZE 4 over the rate boundary of a zero lane file: bytes 134 and 135, then the first two
bytes of `KeccakF(all-zero)`. -/
theorem test_squeeze_over_boundary :
    nextAnd (exec (.squeeze 4) (ctx 32 134 .squeezeReady))
      (fun t => statusWord t == 0x20880203#32 && t.out == [0x00, 0x00, 0xE7, 0xDD]) = true := by
  simp only [exec, execSqueeze, squeezeBytes, squeezeByte, advancePos, permute, keccakF_on_numbers]
  decide +kernel

/-- V-S7: SQUEEZE 0 in INITIALIZED faults like every SQUEEZE. -/
theorem test_squeeze_zero_before_xof :
    nextAnd (accept 0x5000#16 (ctx 16 0 .initialized)) (fun t => statusWord t == 0x10A80055#32) = true := by
  decide +kernel

/-- V-E6: an illegal word in UNINIT reports BAD_COMMAND first. -/
theorem test_bad_command_first :
    nextAnd (accept 0x2100#16 State.reset) (fun t => statusWord t == 0x00000014#32) = true := by
  decide +kernel

/-- V-E7: a command after a fault is discarded. -/
theorem test_locked_discards :
    nextAnd (acceptAll [0x0000#16, 0x1020#16, 0x3000#16] State.reset)
      (fun t => statusWord t == 0x00000014#32 && t.out == []) = true := by
  decide +kernel

/-- `withFetchWord`: the word offered is what the very next step runs. -/
theorem test_withFetchWord :
    nextAnd (step (State.reset.withFetchWord 16 0x1020)) (fun t => statusWord t == 0x20880001#32) = true := by
  decide +kernel

/-! ### The permutation datapath (V-P) -/

/-- V-P1. -/
theorem test_rotl64 :
    rotl64 0x8000000000000001#64 1 = 0x3#64 ∧ rotl64 0x1#64 63 = 0x8000000000000000#64 ∧
    rotl64 0x0123456789ABCDEF#64 4 = 0x123456789ABCDEF0#64 ∧ rotl64 0x0123456789ABCDEF#64 64 = 0x0123456789ABCDEF#64 := by
  decide

/-- V-P2. -/
theorem test_theta_single_bit :
    natLanes (theta (zeroLanes.set 0 1#64)) = [1, 1, 0, 0, 2, 0, 1, 0, 0, 2, 0, 1, 0, 0, 2, 0, 1, 0, 0, 2, 0, 1, 0, 0, 2] := by
  decide +kernel

/-- V-P3. -/
theorem test_rho_ones :
    natLanes (rho (Vector.replicate 25 1#64)) =
      [0x1, 0x2, 0x4000000000000000, 0x10000000, 0x8000000, 0x1000000000, 0x100000000000, 0x40, 0x80000000000000, 0x100000,
       0x8, 0x400, 0x80000000000, 0x2000000, 0x8000000000, 0x20000000000, 0x200000000000, 0x8000, 0x200000, 0x100,
       0x40000, 0x4, 0x2000000000000000, 0x100000000000000, 0x4000] := by
  decide +kernel

/-- V-P4. -/
theorem test_pi_lane_1 : natLanes (pi (zeroLanes.set 1 0xAA#64)) = natLanes (zeroLanes.set 10 0xAA#64) := by
  decide +kernel

/-- V-P5. -/
theorem test_chi_rows :
    natLanes (chi (zeroLanes.set 2 1#64)) = natLanes ((zeroLanes.set 0 1#64).set 2 1#64) ∧
    natLanes (chi (zeroLanes.set 0 0xFFFFFFFFFFFFFFFF#64)) =
      natLanes ((zeroLanes.set 0 0xFFFFFFFFFFFFFFFF#64).set 3 0xFFFFFFFFFFFFFFFF#64) := by
  decide +kernel

/-- The patterned state T of V-P7: byte b holds the value b (20_memory.md R34). -/
def patterned : Lanes := lanesOfBytes (Vector.ofFn fun b => BitVec.ofNat 8 b.val)

/-- V-P7: the lanes of T, and `Iota(T, 23)` in lane 0. -/
theorem test_patterned :
    patterned[0] = 0x0706050403020100#64 ∧ patterned[24] = 0xC7C6C5C4C3C2C1C0#64 ∧
    (iota patterned 23)[0] = 0x8706050483028108#64 := by
  decide +kernel

/-- V-P7: `Round(T, 0)`. -/
theorem test_round_patterned :
    natLanes (keccakRound patterned 0) =
      [0x7E0C1AC8F6C4D241, 0x4A2B0BEB8BAACA6A, 0xC030E3D38272A090, 0xD7145494DC1D5F9D, 0x65C762C067C560C2,
       0x4A8ACAAA8A4A4A2A, 0x398978C8B848F909, 0x74E4D44434A49505, 0x9E7E5F7F1F7F5EFE, 0xA9C9A90928C82888,
       0xACA5ADA4BCB5BDB4, 0x5FD052D355D250D9, 0x011D2925392D1115, 0xC9C3CDC7D1DBC5CF, 0xFAF3CBC0C8C1F9F2,
       0x9BFBABABDB9BEBCB, 0xC2FB948D665F3029, 0x504A4478706E6058, 0xFEC5D0E3F2C9DCEF, 0x2C424046640A484E,
       0x9F19981A991B9A1C, 0x111F1F11151F1B11, 0x14171E1120233A35, 0x595D4155494D5145, 0xDBD5CDC6FFF3EBE2] := by
  decide +kernel

/-- V-P7: `KeccakF(T)`. -/
theorem test_keccakF_patterned :
    natLanes (keccakF patterned) =
      [0x122891F5DAD57CFA, 0xB8F8E5A7DC762921, 0x8FAC0F8C0275B75E, 0x47EE039674314535, 0x17D4A86DCB8C962C,
       0x0E7FA72AB5443CB0, 0xECAFB6D16B31283E, 0xCC03923408BC5109, 0xF862DA941DE5023B, 0x95B69D6EF2C49C08,
       0x5523ACB79ECE1706, 0x24006E24FC78DE1A, 0x290B3E06B019DAB2, 0xE3B8412EEB2FD1B4, 0x31ADAA412CC7B654,
       0x21E5BAA94B44B7E4, 0x79DC818E955C039D, 0xE41CC4BD51315D43, 0x7C3EA0FCE4FD40C2, 0x0DDF350D367861EA,
       0x92CA0BA3F32CF32A, 0xA3896702C577CCDD, 0x6FC7C2E5DABCA9DE, 0x0FA18456F60F4159, 0x070881D4E30FAE16] := by
  rw [natLanes_keccakF]
  decide +kernel

/-- V-P8: the first and the last lane of `KeccakF(all-zero)`, the example of 40_permutation.md R68. -/
theorem test_keccakF_zero :
    nth (natLanes (keccakF zeroLanes)) 0 = 0xF1258F7940E1DDE7 ∧ nth (natLanes (keccakF zeroLanes)) 24 = 0xEAF1FF7B5CECA249 := by
  rw [natLanes_keccakF]
  decide +kernel

/-! ### Witnesses: for each statement, states and operands that meet its hypotheses -/

theorem witness_DecodeOfEncode : (Instr.init 255).wellFormed = true ∧ Instr.final.wellFormed = true := by decide

theorem witness_EncodeOfDecode : ∃ (w : CommandWord) (i : Instr), decode w = .ok i := ⟨0x50FF#16, .squeeze 255, rfl⟩

/-- One word for each clause: RSV not 0, each end of the reserved opcodes, FINAL and XOF with an operand. -/
theorem witness_ReservedWordsTakeBadCommand :
    State.reset.err = false ∧ (0x5F00#16).extractLsb' 8 4 ≠ 0#4 ∧ (0x0000#16).extractLsb' 12 4 = 0#4 ∧
    6 ≤ ((0x6000#16).extractLsb' 12 4).toNat ∧ 6 ≤ ((0xF000#16).extractLsb' 12 4).toNat ∧
    ((0x3001#16).extractLsb' 12 4 = 3#4 ∧ (0x3001#16).extractLsb' 0 8 ≠ 0#8) ∧
    ((0x4080#16).extractLsb' 12 4 = 4#4 ∧ (0x4080#16).extractLsb' 0 8 ≠ 0#8) := by
  decide

theorem witness_AssembledCommandsWellFormed :
    ∃ (line : List Char) (is : List Instr), assembleLine line = .ok is ∧ .absorb 0x62#8 ∈ is :=
  ⟨"ABSORBS 0x61, 98".toList, [.absorb 0x61#8, .absorb 0x62#8], by decide +kernel, by decide⟩

theorem witness_StepRunsDecodedCommand :
    ∃ (s : State) (w : CommandWord) (rest : List HostInput) (i : Instr),
      s.inputs = .command w :: rest ∧ s.err = false ∧ decode w = .ok i :=
  ⟨{ State.reset with inputs := [.command 0x1020#16, .reset] }, 0x1020#16, [.reset], .init 32, rfl, rfl, rfl⟩

/-- A locked core: it takes a word; it is reset; at the pins it is ready and takes a word. -/
theorem witness_LockedCoreDiscardsWords :
    ∃ (s : State) (p : InputPins), s.err = true ∧ s.busy = false ∧ p.rst = false ∧ s.inputs = [.reset] ∧
      changesOffered p ⟨s, none, none⟩ = false ∧ p.cmdValid = true ∧ ∃ t, step s = .next t ∧ t.err = false :=
  ⟨{ State.reset with err := true, errcode := 1#4, inputs := [.reset] }, ⟨false, true, 0x3000#16, true⟩,
    rfl, rfl, rfl, rfl, rfl, rfl, _, rfl, rfl⟩

theorem witness_IdleHoldsState : State.reset.inputs = [] := rfl

theorem witness_ResetStateValues : (⟨false, false, 0#16, false⟩ : InputPins).rst = false := rfl

theorem witness_ResetLoadsResetValues :
    ({ ctx 32 5 .finalized with err := true, errcode := 4#4, inputs := [.reset, .command 0x1020#16] } : State).inputs =
      .reset :: [.command 0x1020#16] := rfl

theorem witness_StepKeepsContextInvariant : ∃ s t : State, s.Inv ∧ step s = .next t :=
  ⟨offerWord 0x3001#16 (ctx 99 1 .initialized), _, by decide, rfl⟩

theorem witness_StepAnswersNextState : (offerWord 0x3000#16 (ctx 0 199 .initialized)).Inv := by decide

/-- The two ends of the clause L < 100, and of the clause 100 ≤ L. -/
theorem witness_InitCreatesFreshContext : 0 < 100 ∧ 99 < 100 ∧ 100 ≤ 100 ∧ State.reset.err = false ∧ 255 < 256 := by decide

/-- The last position inside a block, at the largest and at the smallest rate. -/
theorem witness_AbsorbInsideBlock :
    ((ctx 0 198 .initialized).Inv ∧ (ctx 0 198 .initialized).pos.toNat + 1 < (ctx 0 198 .initialized).rate.toNat) ∧
    ((ctx 99 0 .initialized).Inv ∧ (ctx 99 0 .initialized).pos.toNat + 1 < (ctx 99 0 .initialized).rate.toNat) := by
  decide

theorem witness_AbsorbFillingBlock :
    ((ctx 0 199 .initialized).Inv ∧ (ctx 0 199 .initialized).pos.toNat + 1 = (ctx 0 199 .initialized).rate.toNat) ∧
    ((ctx 99 1 .initialized).Inv ∧ (ctx 99 1 .initialized).pos.toNat + 1 = (ctx 99 1 .initialized).rate.toNat) := by
  decide

/-- The padding bytes apart, and on one byte. -/
theorem witness_FinalEmitsDigest :
    ((ctx 32 0 .initialized).Inv ∧ (ctx 32 0 .initialized).phase = .initialized) ∧
    ((ctx 99 1 .initialized).Inv ∧ (ctx 99 1 .initialized).phase = .initialized) := by
  decide

theorem witness_XofEntersSqueezeMode :
    ((ctx 16 167 .initialized).Inv ∧ (ctx 16 167 .initialized).phase = .initialized) ∧
    ((ctx 0 0 .initialized).Inv ∧ (ctx 0 0 .initialized).phase = .initialized) := by
  decide

theorem witness_SqueezeEmitsStream :
    (ctx 16 167 .squeezeReady).Inv ∧ (ctx 16 167 .squeezeReady).phase = .squeezeReady := by
  decide

theorem witness_SqueezeZeroChangesNothing : (ctx 16 0 .squeezeReady).phase = .squeezeReady := rfl

theorem witness_SqueezesCompose : (ctx 16 160 .squeezeReady).phase = .squeezeReady := rfl

theorem witness_SqueezeNExpansionIsOneSqueeze : (ctx 32 135 .squeezeReady).phase = .squeezeReady := rfl

theorem witness_AbsorbingStreams : ∃ (x : List Byte) (s t : State), execAll (expand (.absorbs x)) s = .next t := by
  obtain ⟨t, h⟩ := exists_next (o := execAll (expand (.absorbs [0x61#8, 0x62#8])) (ctx 32 0 .initialized)) (by decide +kernel)
  exact ⟨_, _, t, h⟩

theorem witness_BlockBoundaries :
    (ctx 99 0 .initialized).Inv ∧ (ctx 99 0 .initialized).phase = .initialized ∧ (ctx 99 0 .initialized).pos = 0#8 ∧
    [0x01#8, 0x02#8].length = (ctx 99 0 .initialized).rate.toNat := by
  decide

theorem witness_HashIsBlockwiseSponge : 0 < 100 ∧ 99 < 100 := by decide

theorem witness_HashRunEndsClean : 0 < 100 ∧ 99 < 100 := by decide

/-- One word for each of the four clauses of the table, with "ok" at L = 99 and BAD_OUTLEN at L = 100. -/
theorem witness_LegalityTableHolds :
    (State.reset.err = false ∧ ∀ i, decode 0x6000#16 ≠ .ok i) ∧
    (decode 0x1064#16 = .ok (.init 100) ∧ legalityTable .finalized (.init 100) = some 6#4) ∧
    ((ctx 32 0 .finalized).Inv ∧ (ctx 32 0 .finalized).err = false ∧ decode 0x1063#16 = .ok (.init 99) ∧
      legalityTable .finalized (.init 99) = none) ∧
    ({ State.reset with err := true, errcode := 2#4 } : State).err = true :=
  ⟨⟨rfl, fun i h => nomatch h⟩, ⟨rfl, rfl⟩, ⟨by decide, rfl, rfl, rfl⟩, rfl⟩

theorem witness_FaultEntryChangesOnlyErr :
    (∃ (w : CommandWord) (s t : State), accept w s = .next t ∧ s.err = false ∧ t.err = true) ∧
    State.reset.err = false ∧ ({ State.reset with err := true, errcode := 6#4 } : State).err = true :=
  ⟨⟨0x2061#16, State.reset, _, rfl, rfl, rfl⟩, rfl, rfl⟩

/-- A step and a command from a locked state. -/
theorem witness_ErrStickyUntilReset :
    (∃ s t : State, step s = .next t ∧ s.err = true) ∧ ∃ (i : Instr) (s t : State), exec i s = .next t ∧ s.err = true :=
  ⟨⟨offerWord 0x1020#16 { State.reset with err := true, errcode := 1#4 }, _, rfl, rfl⟩,
    ⟨.init 32, { State.reset with err := true, errcode := 1#4 }, _, rfl, rfl⟩⟩

/-- A command that faults and one that does not. -/
theorem witness_EmittedByteCounts :
    (∃ (i : Instr) (s t : State), exec i s = .next t ∧ s.err = false ∧ t.err = true) ∧
    ∃ (i : Instr) (s t : State), exec i s = .next t ∧ s.err = false ∧ t.err = false ∧ i = .squeeze 2 := by
  refine ⟨⟨.final, State.reset, _, rfl, rfl, rfl⟩, ?_⟩
  have h : nextAnd (exec (.squeeze 2) (ctx 32 0 .squeezeReady)) (fun t => t.err == false) = true := by decide +kernel
  obtain ⟨t, h1, h2⟩ := nextAnd_iff.mp h
  exact ⟨_, _, t, h1, rfl, by simpa using h2, rfl⟩

theorem witness_PhaseMovesAlongStateMachine : ∃ (i : Instr) (s t : State), exec i s = .next t ∧ t.phase ≠ s.phase :=
  ⟨.init 0, State.reset, _, rfl, by decide⟩

theorem witness_CommandsFrame : ∃ (i : Instr) (s t : State), exec i s = .next t ∧ ∀ L, i ≠ .init L :=
  ⟨.xof, State.reset, _, rfl, fun _ h => nomatch h⟩

theorem witness_LanesBeforeInitUnobservable :
    ∃ t, Host.Core.run Sys2Proof.core 1 { State.reset with inputs := [.command 0x1020#16] } = .next t ∧ t.phase ≠ .uninit :=
  ⟨_, rfl, by decide⟩

/-- The last bit, and an amount of rotation at each end of 1..63. -/
theorem witness_RotationMovesBits : 63 < 64 ∧ 1 % 64 ≠ 0 ∧ 63 % 64 ≠ 0 := by decide

theorem witness_PiMovesLanes : (1 : Fin 25) ≠ 0 ∧ (24 : Fin 25) ≠ 0 := by decide

/-- A state that is not zero and whose every column has even parity. -/
theorem witness_ThetaUsesInputParities :
    ∀ x : Fin 5, columnParity ((zeroLanes.set 0 7#64).set 20 7#64) x = 0#64 := by
  decide +kernel

/-- Two states that agree on row 0 and differ elsewhere; a row of ones; a row of zeros in a state that is not zero. -/
theorem witness_ChiActsOnRows :
    (∀ x, laneAt zeroLanes x 0 = laneAt (zeroLanes.set 5 1#64) x 0) ∧
    (∀ x, laneAt (Vector.replicate 25 (BitVec.allOnes 64)) x 4 = BitVec.allOnes 64) ∧
    (∀ x, laneAt (zeroLanes.set 5 1#64) x 0 = 0#64) := by
  decide +kernel

theorem witness_RoundsInChunksAreKeccakF :
    [(List.finRange 24).take 10, (List.finRange 24).drop 10].flatten = List.finRange 24 := by decide

theorem witness_OnlyStateBytesExist : 199 < 200 ∧ 200 ≤ 200 := by decide

theorem witness_PortCommandRefinesAccept :
    ∃ (w : CommandWord) (s t : State), s.busy = false ∧ accept w s = .next t :=
  ⟨0x1020#16, State.reset, _, rfl, rfl⟩

/-- Each end of the cycles before completion: the first, and one that is the last. -/
theorem witness_PromptHostCompletesAtLatency :
    ∃ (w : CommandWord) (s t : State) (latency : Nat), s.busy = false ∧ s.err = false ∧ accept w s = .next t ∧
      latency = max 1 (max (Config.cmdLatency w (statusWord s)) (t.out.length - s.out.length)) ∧ 0 < latency ∧
      latency - 1 < latency := by
  refine ⟨0x1020#16, State.reset, _, _, rfl, rfl, rfl, rfl, ?_, ?_⟩ <;> omega

/-- A port state with a command in flight that has one byte to transfer. -/
def oneByteJob : Job := ⟨0, [0x3a#8], { ctx 32 0 .finalized with out := [0x3a#8] }⟩

/-- A port state with that command in flight. -/
def oneByteLeft : PortState := ⟨{ ctx 32 0 .initialized with busy := true }, some oneByteJob, none⟩

theorem oneByteLeft_inv : oneByteLeft.Inv :=
  ⟨rfl, fun j h => by cases h; exact ⟨rfl, rfl⟩⟩

theorem witness_TickKeepsPortInvariant : ∃ (p : InputPins) (s t : PortState), s.Inv ∧ tick p s = .next t :=
  ⟨⟨false, false, 0#16, true⟩, oneByteLeft, _, oneByteLeft_inv, rfl⟩

theorem witness_BusyCoreAcceptsNoWord :
    ∃ (p : InputPins) (s t : PortState) (j : Job), s.Inv ∧ s.job = some j ∧ p.rst = false ∧ tick p s = .next t :=
  ⟨⟨false, true, 0x1020#16, true⟩, oneByteLeft, _, oneByteJob, oneByteLeft_inv, rfl, rfl, rfl⟩

/-- Two cycles of a host that takes nothing and keeps offering a word. -/
theorem witness_UndrainedOutputHangs :
    ∃ (ps : List InputPins) (t : PortState), ps.length = 2 ∧ oneByteLeft.Inv ∧
      oneByteLeft.job = some ⟨0, [0x3a#8], { ctx 32 0 .finalized with out := [0x3a#8] }⟩ ∧
      (∀ p ∈ ps, p.rst = false ∧ p.outReady = false) ∧ ticks ps oneByteLeft = .next t :=
  ⟨List.replicate 2 ⟨false, true, 0x1020#16, false⟩, _, rfl, oneByteLeft_inv, rfl, by decide, rfl⟩

/-- The cycle that completes a command, and a cycle that does not. -/
theorem witness_StatusCoherent :
    (∃ (p : InputPins) (s t : PortState), s.Inv ∧ p.rst = false ∧ tick p s = .next t ∧ t.job = none) ∧
    ∃ (p : InputPins) (s t : PortState), s.Inv ∧ p.rst = false ∧ tick p s = .next t ∧ t.job ≠ none :=
  ⟨⟨⟨false, false, 0#16, true⟩,
      ⟨{ ctx 32 0 .initialized with busy := true }, some ⟨0, [], ctx 32 0 .finalized⟩, none⟩, _,
      ⟨rfl, fun j h => by cases h; exact ⟨rfl, rfl⟩⟩, rfl, rfl, rfl⟩,
    ⟨⟨false, false, 0#16, false⟩, oneByteLeft, _, oneByteLeft_inv, rfl, rfl, fun h => nomatch h⟩⟩

/-- The host takes the byte, and leaves it. -/
theorem witness_ByteTransferNeedsBothSides :
    (∃ (p : InputPins) (s t : PortState), s.Inv ∧ p.rst = false ∧ p.outReady = true ∧ tick p s = .next t ∧
      (portOutputs p s).outValid = true) ∧
    ∃ (p : InputPins) (s t : PortState), s.Inv ∧ p.rst = false ∧ p.outReady = false ∧ tick p s = .next t :=
  ⟨⟨⟨false, false, 0#16, true⟩, oneByteLeft, _, oneByteLeft_inv, rfl, rfl, rfl, rfl⟩,
    ⟨⟨false, false, 0#16, false⟩, oneByteLeft, _, oneByteLeft_inv, rfl, rfl, rfl⟩⟩

/-- A reset with a command in flight and a word waiting. -/
theorem witness_PortResetAbandonsCommand :
    ∃ (p : InputPins) (s : PortState), p.rst = true ∧ s.job ≠ none ∧ s.offered ≠ none ∧ changesOffered p s = false :=
  ⟨⟨true, true, 0x1020#16, true⟩, { oneByteLeft with offered := some 0x1020#16 }, rfl, (fun h => nomatch h),
    (fun h => nomatch h), rfl⟩

/-- The offer changed while the core is busy, and while it is in reset. -/
theorem witness_ChangedOfferIsRefused :
    ∃ (p q : InputPins) (s : PortState) (w : CommandWord), s.offered = some w ∧
      (p.rst = false ∧ p.cmdValid = true ∧ p.cmdData ≠ w) ∧ (q.rst = true ∧ q.cmdValid = true ∧ q.cmdData ≠ w) :=
  ⟨⟨false, true, 0x3000#16, true⟩, ⟨true, true, 0x3000#16, true⟩, { oneByteLeft with offered := some 0x1020#16 }, 0x1020#16,
    rfl, ⟨rfl, rfl, by decide⟩, ⟨rfl, rfl, by decide⟩⟩

/-- V-E7 at the pins: a locked core takes a word and is not busy. -/
theorem test_locked_pins_stay_ready :
    ∃ t, tick ⟨false, true, 0x1020#16, true⟩ ⟨{ State.reset with err := true, errcode := 1#4 }, none, none⟩ = .next t ∧
      (portOutputs ⟨false, true, 0x3000#16, true⟩ t).cmdReady = true ∧ statusWord t.regs = 0x00000014#32 :=
  ⟨_, rfl, rfl, by decide⟩

end Sys2Proof.Tests
end

section
/-! PROOF. CMD_LATENCY is the time from acceptance to completion, with a host that takes each byte at once (00_scope.md R9). -/

namespace Sys2Proof.Machine

/-- The command in flight right after an idle core in state `s` accepts `w`, whose result is `t`. -/
def acceptedJob (w : CommandWord) (s t : State) : Job where
  wait := Config.cmdLatency w (statusWord s)
  bytes := t.out.drop s.out.length
  result := t

/-- A word an idle core accepts, and that is not discarded, puts the command of `accept` in flight. -/
theorem startJob_of_accept {w : CommandWord} {s t : State} (he : s.err = false) (h : accept w s = .next t) :
    startJob w s = .next ⟨busyRegs s, some (acceptedJob w s t), none⟩ := by
  simp [startJob, he, h, acceptedJob]

theorem ticks_cons_of_tick {p : InputPins} {s t : PortState} (h : tick p s = .next t) (ps : List InputPins) :
    ticks (p :: ps) s = ticks ps t := by
  simp [ticks, h]

/-- The pins of a host that offers no word and takes each byte at once. -/
def promptPins : InputPins := ⟨false, false, 0#16, true⟩

/-- How many cycles a command in flight takes with a host that takes each byte at once: what is left of its latency, but one
for each byte, and one at least. -/
def Job.cyclesLeft (j : Job) : Nat := max 1 (max j.wait j.bytes.length)

theorem Job.one_le_cyclesLeft (j : Job) : 1 ≤ j.cyclesLeft := Nat.le_max_left ..

theorem acceptedJob_cyclesLeft (w : CommandWord) (s t : State) :
    (acceptedJob w s t).cyclesLeft =
      max 1 (max (Config.cmdLatency w (statusWord s)) (t.out.length - s.out.length)) := by
  rw [Job.cyclesLeft, acceptedJob, List.length_drop]

/-- A taken byte is gone, and a byte is taken once as few cycles of latency are left as there are bytes. -/
theorem advanceJob_promptPins_length (j : Job) :
    (advanceJob promptPins j).bytes.length = if j.wait ≤ j.bytes.length then j.bytes.length - 1 else j.bytes.length := by
  obtain ⟨wait, bytes, result⟩ := j
  by_cases hw : wait ≤ bytes.length
  · cases bytes <;> simp_all [advanceJob, transferredBytes, offeredByte, promptPins]
  · simp [advanceJob, transferredBytes, offeredByte, promptPins, hw]

/-- A command completes in the cycle that is the last left. -/
theorem advanceJob_promptPins_done_iff (j : Job) :
    ((advanceJob promptPins j).wait = 0 ∧ (advanceJob promptPins j).bytes = []) ↔ j.cyclesLeft = 1 := by
  rw [← List.length_eq_zero_iff, advanceJob_promptPins_length, advanceJob_wait, Job.cyclesLeft]
  split <;> omega

theorem advanceJob_promptPins_cyclesLeft {j : Job} (h : 1 < j.cyclesLeft) :
    (advanceJob promptPins j).cyclesLeft = j.cyclesLeft - 1 := by
  unfold Job.cyclesLeft at h ⊢
  rw [advanceJob_promptPins_length, advanceJob_wait]
  split <;> omega

/-- The last cycle left commits the result. -/
theorem tick_promptPins_last (r : State) {j : Job} (h : j.cyclesLeft = 1) :
    tick promptPins ⟨r, some j, none⟩ = .next ⟨j.result, none, none⟩ := by
  rcases runJob_cases promptPins ⟨r, some j, none⟩ j with ⟨-, -, hrun⟩ | ⟨hgo, -⟩
  · exact congrArg Host.Outcome.next hrun
  · exact absurd ((advanceJob_promptPins_done_iff j).mpr h) hgo

/-- A cycle before the last keeps BUSY and the command in flight. -/
theorem tick_promptPins_before (r : State) {j : Job} (h : 1 < j.cyclesLeft) :
    ∃ r', r'.busy = r.busy ∧
      tick promptPins ⟨r, some j, none⟩ = .next ⟨r', some (advanceJob promptPins j), none⟩ := by
  rcases runJob_cases promptPins ⟨r, some j, none⟩ j with ⟨hwait, hbytes, -⟩ | ⟨-, hrun⟩
  · have := (advanceJob_promptPins_done_iff j).mp ⟨hwait, hbytes⟩
    omega
  · exact ⟨{ r with out := r.out ++ transferredBytes promptPins j }, rfl, congrArg Host.Outcome.next hrun⟩

/-- A command in flight is complete after the cycles it has left. -/
theorem ticks_promptPins_complete (n : Nat) (r : State) (j : Job) (h : j.cyclesLeft = n + 1) :
    ticks (List.replicate (n + 1) promptPins) ⟨r, some j, none⟩ = .next ⟨j.result, none, none⟩ := by
  induction n generalizing r j with
  | zero => exact ticks_cons_of_tick (tick_promptPins_last r h) []
  | succ n ih =>
    have hmore : 1 < j.cyclesLeft := by omega
    obtain ⟨r', -, htick⟩ := tick_promptPins_before r hmore
    rw [List.replicate_succ, ticks_cons_of_tick htick]
    exact ih r' _ (by rw [advanceJob_promptPins_cyclesLeft hmore]; omega)

/-- A command in flight is BUSY after fewer cycles than it has left. -/
theorem ticks_promptPins_busy (k : Nat) (r : State) (j : Job) (hbusy : r.busy = true) (h : k < j.cyclesLeft) :
    ∃ u, u.regs.busy = true ∧ ticks (List.replicate k promptPins) ⟨r, some j, none⟩ = .next u := by
  induction k generalizing r j with
  | zero => exact ⟨_, hbusy, rfl⟩
  | succ k ih =>
    have hmore : 1 < j.cyclesLeft := by omega
    obtain ⟨r', hr', htick⟩ := tick_promptPins_before r hmore
    rw [List.replicate_succ, ticks_cons_of_tick htick]
    exact ih r' _ (hr'.trans hbusy) (by rw [advanceJob_promptPins_cyclesLeft hmore]; omega)

/-- Settles O57: acceptance puts in flight a command whose cycles left are the latency, and each cycle takes one of them, by
induction on the cycles. -/
theorem promptHostCompletesAtLatency : Obligations.PromptHostCompletesAtLatency := by
  intro w s t latency _ herr haccept hlatency
  have hleft : (acceptedJob w s t).cyclesLeft = latency := (acceptedJob_cyclesLeft w s t).trans hlatency.symm
  have hstart : tick ⟨false, true, w, true⟩ ⟨s, none, none⟩ = .next ⟨busyRegs s, some (acceptedJob w s t), none⟩ :=
    startJob_of_accept herr haccept
  simp only [ticks_cons_of_tick hstart]
  constructor
  · obtain ⟨n, rfl⟩ := Nat.exists_eq_add_of_le' (hleft ▸ (acceptedJob w s t).one_le_cyclesLeft)
    exact ticks_promptPins_complete n _ _ hleft
  · exact fun k hk => ticks_promptPins_busy k _ _ rfl (hleft ▸ hk)

end Sys2Proof.Machine
end

section
/-! PROOF. The invariants of 10_state.md R25: every command, every accepted word and every step keeps them, and in a state that
meets them every step answers a next state. -/

namespace Sys2Proof.Machine

/-! ### The registers of a context -/

theorem State.Inv.context {s : State} (h : s.Inv) (hphase : s.phase ≠ .uninit) :
    s.outlen.toNat ≤ 99 ∧ s.rate.toNat = 200 - 2 * s.outlen.toNat ∧ s.pos.toNat < s.rate.toNat := by
  obtain ⟨-, hcontext, -⟩ := h
  exact hcontext hphase

/-- A state with a context and the flags of a state that meets the invariants meets them. -/
theorem State.Inv.of_context {s t : State} (h : s.Inv) (hphase : t.phase ≠ .uninit)
    (hcontext : t.outlen.toNat ≤ 99 ∧ t.rate.toNat = 200 - 2 * t.outlen.toNat ∧ t.pos.toNat < t.rate.toNat)
    (hflags : t.err = s.err ∧ t.errcode = s.errcode ∧ t.busy = s.busy) : t.Inv := by
  obtain ⟨-, -, hclean, hlocked, hidle⟩ := h
  obtain ⟨herr, hcode, hbusy⟩ := hflags
  exact ⟨fun hp => absurd hp hphase, fun _ => hcontext, by rwa [herr, hcode], by rwa [herr, hcode], hbusy.trans hidle⟩

theorem misuseCode_range (m : Misuse) : 1 ≤ (misuseCode m).toNat ∧ (misuseCode m).toNat ≤ 6 := by
  cases m <;> decide

theorem State.Inv.raise {s : State} (h : s.Inv) (m : Misuse) : (raise m s).Inv := by
  cases herr : s.err with
  | true => rwa [raise_of_err m herr]
  | false =>
    rw [raise_of_not_err m herr]
    obtain ⟨hnone, hcontext, -, -, hidle⟩ := h
    exact ⟨hnone, hcontext, nofun, fun _ => misuseCode_range m, hidle⟩

theorem rateOf_toNat (L : Nat) : (rateOf L).toNat = 200 - 2 * L := by
  rw [rateOf, BitVec.toNat_ofNat]
  omega

theorem outlenOf_toNat {L : Nat} (h : L < 100) : (outlenOf L).toNat = L := by
  rw [outlenOf, BitVec.toNat_ofNat]
  omega

theorem lastRateIndex_eq {s : State} (h : 0 < s.rate.toNat) : lastRateIndex s = s.rate.toNat - 1 := by
  have hle : 1#8 ≤ s.rate := BitVec.le_def.mpr h
  exact BitVec.toNat_sub_of_le hle

/-- A squeeze from a position inside the rate answers, and leaves a position inside the rate. -/
theorem squeezeBytes_answers (n : Nat) (s : State) (hpos : s.pos.toNat < s.rate.toNat) (hrate : s.rate.toNat ≤ 200) :
    ∃ t, squeezeBytes n s = .ok t ∧ t.pos.toNat < t.rate.toNat := by
  induction n generalizing s with
  | zero => exact ⟨s, rfl, hpos⟩
  | succ n ih =>
    have hindex : posIndex s < 200 := Nat.lt_of_lt_of_le hpos hrate
    simp only [squeezeBytes_succ, squeezeByte_ok hindex]
    exact ih _ (advancePos_pos_lt (s := emit s _) hpos) (by simpa using hrate)

/-! ### What keeps the invariants -/

theorem State.Inv.initContext {s : State} (h : s.Inv) {L : Nat} (hL : L < 100) : (initContext L s).Inv := by
  refine h.of_context nofun ?_ ⟨rfl, rfl, rfl⟩
  simp [outlenOf_toNat hL, rateOf_toNat]
  omega

theorem exec_keeps_inv {i : Instr} {s t : State} (h : s.Inv) (hexec : exec i s = .next t) : t.Inv := by
  rcases exec_next hexec with ⟨m, rfl⟩ | ⟨L, -, hL, rfl⟩ | ⟨m, -, hphase, heffect⟩ | ⟨-, hphase, heffect⟩ |
    ⟨-, hphase, heffect⟩ | ⟨n, -, hphase, heffect⟩
  · exact h.raise m
  · exact h.initContext hL
  all_goals
    obtain ⟨hout, hrate, hpos⟩ := h.context (by simp [hphase])
  · obtain ⟨hb, rfl⟩ := absorbByte_inv heffect
    exact h.of_context (by simp [hphase]) ⟨by simpa using hout, by simpa using hrate, advancePos_pos_lt hpos⟩ (by simp)
  · obtain ⟨A, bytes, -, rfl⟩ := finalDigest_inv heffect
    exact h.of_context nofun ⟨hout, hrate, hpos⟩ ⟨rfl, rfl, rfl⟩
  · obtain ⟨A, rfl⟩ := xofFinalize_inv heffect
    exact h.of_context nofun ⟨hout, hrate, Nat.zero_lt_of_lt hpos⟩ ⟨rfl, rfl, rfl⟩
  · obtain ⟨u, hu, hpos'⟩ := squeezeBytes_answers n s hpos (by omega)
    obtain rfl : u = t := Except.ok.inj (hu.symm.trans heffect)
    obtain ⟨A, p, bytes, -, rfl⟩ := squeezeBytes_inv heffect
    exact h.of_context (by simp [hphase]) ⟨hout, hrate, hpos'⟩ ⟨rfl, rfl, rfl⟩

theorem accept_keeps_inv {w : CommandWord} {s t : State} (h : s.Inv) (haccept : accept w s = .next t) : t.Inv := by
  have hcount : (countCommand s).Inv := h
  rcases accept_next haccept with ⟨-, rfl⟩ | ⟨-, -, rfl⟩ | ⟨-, i, -, hexec⟩
  · exact hcount
  · exact hcount.raise .badCommand
  · exact exec_keeps_inv hcount hexec

/-- Settles O12, by evaluation of the reset state's registers. -/
theorem resetMeetsContextInvariant : Obligations.ResetMeetsContextInvariant := by
  unfold Obligations.ResetMeetsContextInvariant
  decide

theorem applyReset_inv (s : State) : (applyReset s).Inv := resetMeetsContextInvariant

/-- Settles O13: idling changes nothing, an accepted word keeps the invariants (`accept_keeps_inv`), and a reset loads a state
that meets them. -/
theorem stepKeepsContextInvariant : Obligations.StepKeepsContextInvariant := by
  intro s t h hstep
  rcases step_cases hstep with ⟨-, rfl⟩ | ⟨w, rest, -, haccept⟩ | ⟨rest, -, rfl⟩
  · exact h
  · exact accept_keeps_inv (s := { s with inputs := rest }) h haccept
  · exact applyReset_inv _

/-! ### In a state that meets the invariants, every step answers a next state (20_memory.md R39) -/

theorem checked_answers {misuse : Option Misuse} {e : Except Fault State} (s : State)
    (h : misuse = none → ∃ t, e = .ok t) : ∃ t, checked misuse s e = .next t := by
  cases misuse with
  | some m => exact ⟨_, rfl⟩
  | none =>
    obtain ⟨t, rfl⟩ := h rfl
    exact ⟨t, rfl⟩

/-- In a context the padding answers, and leaves a state of which only the lanes are new. -/
theorem State.Inv.pad_answers {s : State} (h : s.Inv) (hphase : s.phase ≠ .uninit) (suffix : Byte) :
    ∃ A, pad suffix s = .ok { s with lanes := A } := by
  obtain ⟨hout, hrate, hpos⟩ := h.context hphase
  have hfirst : posIndex s < 200 := by rw [posIndex]; omega
  have hlast : lastRateIndex s < 200 := by rw [lastRateIndex_eq] <;> omega
  exact ⟨_, pad_ok suffix s hfirst hlast⟩

theorem exec_answers (i : Instr) {s : State} (h : s.Inv) : ∃ t, exec i s = .next t := by
  cases i with
  | init L => exact checked_answers s fun _ => ⟨_, rfl⟩
  | absorb m =>
    refine checked_answers s fun hcheck => ?_
    have hphase : s.phase ≠ .uninit := fun hp => by simp [hp, absorbMisuse] at hcheck
    obtain ⟨hout, hrate, hpos⟩ := h.context hphase
    exact ⟨_, absorbByte_ok m (by rw [posIndex]; omega)⟩
  | final =>
    refine checked_answers s fun hcheck => ?_
    have hphase : s.phase ≠ .uninit := fun hp => by simp [hp, finalMisuse] at hcheck
    obtain ⟨hout, -, -⟩ := h.context hphase
    obtain ⟨A, hpad⟩ := h.pad_answers hphase finalSuffix
    simp only [finalDigest, hpad]
    rw [emitBytesFrom_ok _ _ _ (by omega)]
    exact ⟨_, rfl⟩
  | xof =>
    refine checked_answers s fun hcheck => ?_
    have hphase : s.phase ≠ .uninit := fun hp => by simp [hp, xofMisuse] at hcheck
    obtain ⟨A, hpad⟩ := h.pad_answers hphase xofSuffix
    simp only [xofFinalize, hpad]
    exact ⟨_, rfl⟩
  | squeeze n =>
    refine checked_answers s fun hcheck => ?_
    have hphase : s.phase ≠ .uninit := fun hp => by simp [hp, squeezeMisuse] at hcheck
    obtain ⟨-, hrate, hpos⟩ := h.context hphase
    obtain ⟨t, ht, -⟩ := squeezeBytes_answers n s hpos (by omega)
    exact ⟨t, ht⟩

theorem accept_answers (w : CommandWord) {s : State} (h : s.Inv) : ∃ t, accept w s = .next t := by
  cases herr : s.err with
  | true => exact ⟨_, accept_locked w herr⟩
  | false =>
    cases hdecode : decode w with
    | error e => exact ⟨_, accept_illegal herr hdecode⟩
    | ok i =>
      rw [accept_decoded herr hdecode]
      exact exec_answers i h

theorem step_of_idle {s : State} (h : s.inputs = []) : step s = .next s := by
  simp [step, h]

theorem step_of_input {s : State} {input : HostInput} {rest : List HostInput} (h : s.inputs = input :: rest) :
    step s = takeInput input { s with inputs := rest } := by
  simp [step, h]

theorem step_answers {s : State} (h : s.Inv) : ∃ t, step s = .next t := by
  cases hinputs : s.inputs with
  | nil => exact ⟨s, step_of_idle hinputs⟩
  | cons input rest =>
    rw [step_of_input hinputs]
    cases input with
    | command w => exact accept_answers w (s := { s with inputs := rest }) h
    | reset => exact ⟨_, rfl⟩

end Sys2Proof.Machine
end

section
/-! PROOF. What a command does to ERR, BUSY, PHASE and the output stream (10_state.md R20, R21, R31). -/

namespace Sys2Proof.Machine

/-- How many bytes a command emits (10_state.md R31). -/
def emittedCount (i : Instr) (s : State) : Nat :=
  match i with
  | .init _ => 0
  | .absorb _ => 0
  | .final => s.outlen.toNat
  | .xof => 0
  | .squeeze n => n

/-- A command that answers a next state took the fault entry, or left the flags alone and appended its bytes. -/
theorem exec_raises_or_emits {i : Instr} {s t : State} (h : exec i s = .next t) :
    (∃ m, t = raise m s) ∨
    (t.err = s.err ∧ t.errcode = s.errcode ∧ t.busy = s.busy ∧
      ∃ bytes, t.out = s.out ++ bytes ∧ bytes.length = emittedCount i s) := by
  rcases exec_next h with hraise | ⟨L, rfl, -, rfl⟩ | ⟨m, rfl, -, heffect⟩ | ⟨rfl, -, heffect⟩ | ⟨rfl, -, heffect⟩ |
    ⟨n, rfl, -, heffect⟩
  · exact .inl hraise
  all_goals right
  · exact ⟨rfl, rfl, rfl, [], by simp, rfl⟩
  · obtain ⟨hb, rfl⟩ := absorbByte_inv heffect
    exact ⟨by simp, by simp, by simp, [], by simp, rfl⟩
  · obtain ⟨A, bytes, hlength, rfl⟩ := finalDigest_inv heffect
    exact ⟨rfl, rfl, rfl, bytes, rfl, hlength⟩
  · obtain ⟨A, rfl⟩ := xofFinalize_inv heffect
    exact ⟨rfl, rfl, rfl, [], by simp, rfl⟩
  · obtain ⟨A, p, bytes, hlength, rfl⟩ := squeezeBytes_inv heffect
    exact ⟨rfl, rfl, rfl, bytes, rfl, hlength⟩

theorem exec_keeps_err {i : Instr} {s t : State} (h : exec i s = .next t) (herr : s.err = true) :
    t.err = true ∧ t.errcode = s.errcode := by
  rcases exec_raises_or_emits h with ⟨m, rfl⟩ | ⟨hflag, hcode, -⟩
  · rw [raise_of_err m herr]
    exact ⟨herr, rfl⟩
  · exact ⟨hflag.trans herr, hcode⟩

/-- Settles O31: a locked core discards every word, and a command run from ERR = 1 keeps both registers
(`exec_keeps_err`). -/
theorem errStickyUntilReset : Obligations.ErrStickyUntilReset := by
  refine ⟨fun s t hstep herr => ?_, fun i s t hexec herr => exec_keeps_err hexec herr⟩
  rcases step_cases hstep with ⟨-, rfl⟩ | ⟨w, rest, -, haccept⟩ | ⟨rest, hinputs, -⟩
  · exact .inl ⟨herr, rfl⟩
  · rw [accept_locked w (s := { s with inputs := rest }) herr] at haccept
    cases haccept
    exact .inl ⟨herr, rfl⟩
  · exact .inr ⟨rest, hinputs⟩

/-- Settles O32: the fault entry sets ERR and leaves the output stream, and an effect leaves ERR and appends its count. -/
theorem emittedByteCounts : Obligations.EmittedByteCounts := by
  intro i s t hexec herr
  rcases exec_raises_or_emits hexec with ⟨m, rfl⟩ | ⟨hflag, -, -, bytes, hout, hlength⟩
  · exact ⟨fun _ => raise_out m s, fun hclean => by simp at hclean⟩
  · exact ⟨fun hfault => by simp [hflag, herr] at hfault, fun _ => ⟨bytes, hout, hlength⟩⟩

/-- Settles O33: only the effects of INIT, FINAL and XOF write PHASE. -/
theorem phaseMovesAlongStateMachine : Obligations.PhaseMovesAlongStateMachine := by
  intro i s t hexec hmoved
  rcases exec_next hexec with ⟨m, rfl⟩ | ⟨L, rfl, hL, rfl⟩ | ⟨m, rfl, -, heffect⟩ | ⟨rfl, hphase, heffect⟩ |
    ⟨rfl, hphase, heffect⟩ | ⟨n, rfl, -, heffect⟩
  · exact absurd (raise_phase m s) hmoved
  · exact .inl ⟨⟨L, rfl, hL⟩, rfl⟩
  · obtain ⟨hb, rfl⟩ := absorbByte_inv heffect
    exact absurd (advancePos_phase _) hmoved
  · obtain ⟨A, bytes, -, rfl⟩ := finalDigest_inv heffect
    exact .inr (.inl ⟨rfl, hphase, rfl⟩)
  · obtain ⟨A, rfl⟩ := xofFinalize_inv heffect
    exact .inr (.inr ⟨rfl, hphase, rfl⟩)
  · obtain ⟨A, p, bytes, -, rfl⟩ := squeezeBytes_inv heffect
    exact absurd rfl hmoved

end Sys2Proof.Machine
end

section
/-! PROOF. Whole runs: every run goes on inside the invariants (10_state.md R25), and no run shows the lanes' value at reset
(10_state.md R33; 41_sponge.md R81). -/

namespace Sys2Proof.Machine

theorem run_succ_of_step {s t : State} (h : step s = .next t) (n : Nat) :
    Host.Core.run Sys2Proof.core (n + 1) s = Host.Core.run Sys2Proof.core n t := by
  have hcore : Sys2Proof.core.step s = .next t := h
  simp [Host.Core.run, hcore]

/-! ### Every run goes on -/

theorem run_answers_inv (n : Nat) {s : State} (h : s.Inv) :
    ∃ t, Host.Core.run Sys2Proof.core n s = .next t ∧ t.Inv := by
  induction n generalizing s with
  | zero => exact ⟨s, rfl, h⟩
  | succ n ih =>
    obtain ⟨t, hstep⟩ := step_answers h
    rw [run_succ_of_step hstep]
    exact ih (stepKeepsContextInvariant s t h hstep)

/-- Settles O15, by induction on the steps from the reset state, whose invariants do not speak of the inputs. -/
theorem reachableStatesMeetInvariants : Obligations.ReachableStatesMeetInvariants :=
  fun presented n => run_answers_inv n (s := { State.reset with inputs := presented }) resetMeetsContextInvariant

/-! ### The lanes before a context exists -/

/-- The same state over another lane file. -/
def withLanes (A : Lanes) (s : State) : State := { s with lanes := A }

@[simp] theorem withLanes_phase (A : Lanes) (s : State) : (withLanes A s).phase = s.phase := rfl

@[simp] theorem withLanes_err (A : Lanes) (s : State) : (withLanes A s).err = s.err := rfl

@[simp] theorem withLanes_inputs (A : Lanes) (s : State) : (withLanes A s).inputs = s.inputs := rfl

theorem observed_withLanes (A : Lanes) (s : State) : (withLanes A s).observed = s.observed := rfl

theorem countCommand_withLanes (A : Lanes) (s : State) :
    countCommand (withLanes A s) = withLanes A (countCommand s) := rfl

theorem initContext_withLanes (L : Nat) (A : Lanes) (s : State) : initContext L (withLanes A s) = initContext L s := rfl

theorem raise_withLanes (m : Misuse) (A : Lanes) (s : State) : raise m (withLanes A s) = withLanes A (raise m s) := by
  cases herr : s.err with
  | true => rw [raise_of_err m herr, raise_of_err m (s := withLanes A s) herr]
  | false =>
    rw [raise_of_not_err m herr, raise_of_not_err m (s := withLanes A s) herr]
    rfl

/-- With no context a command is an INIT that passes its check, or a misuse. -/
theorem exec_of_uninit (i : Instr) :
    (∃ L, ∀ s, exec i s = .next (initContext L s)) ∨
    ∃ m, ∀ s : State, s.phase = .uninit → exec i s = .next (raise m s) := by
  cases i with
  | init L =>
    by_cases hL : 100 ≤ L
    · exact .inr ⟨.badOutlen, fun s _ => by simp [exec, execInit, initMisuse, hL]⟩
    · exact .inl ⟨L, fun s => by simp [exec, execInit, initMisuse, hL]⟩
  | absorb m => exact .inr ⟨.notInitialized, fun s hp => by simp [exec, execAbsorb, absorbMisuse, hp]⟩
  | final => exact .inr ⟨.notInitialized, fun s hp => by simp [exec, execFinal, finalMisuse, hp]⟩
  | xof => exact .inr ⟨.notInitialized, fun s hp => by simp [exec, execXof, xofMisuse, hp]⟩
  | squeeze n => exact .inr ⟨.notInitialized, fun s hp => by simp [exec, execSqueeze, squeezeMisuse, hp]⟩

/-- With no context, a command overwrites every lane, or makes no context and leaves every lane as it was. -/
theorem exec_withLanes {i : Instr} {s t : State} (hphase : s.phase = .uninit) (h : exec i s = .next t) (A : Lanes) :
    exec i (withLanes A s) = .next t ∨ (t.phase = .uninit ∧ exec i (withLanes A s) = .next (withLanes A t)) := by
  rcases exec_of_uninit i with ⟨L, hinit⟩ | ⟨m, hmisuse⟩
  · left
    rw [← h, hinit, hinit, initContext_withLanes]
  · right
    rw [hmisuse s hphase] at h
    cases h
    exact ⟨by simp [hphase], by rw [hmisuse (withLanes A s) hphase, raise_withLanes]⟩

theorem accept_withLanes {w : CommandWord} {s t : State} (hphase : s.phase = .uninit) (h : accept w s = .next t)
    (A : Lanes) :
    accept w (withLanes A s) = .next t ∨
    (t.phase = .uninit ∧ accept w (withLanes A s) = .next (withLanes A t)) := by
  rcases accept_next h with ⟨herr, rfl⟩ | ⟨herr, ⟨e, hdecode⟩, rfl⟩ | ⟨herr, i, hdecode, hexec⟩
  · exact .inr ⟨hphase, accept_locked w (s := withLanes A s) herr⟩
  · refine .inr ⟨by simp [hphase], ?_⟩
    rw [accept_illegal (s := withLanes A s) herr hdecode, countCommand_withLanes, raise_withLanes]
  · rw [accept_decoded (s := withLanes A s) herr hdecode]
    exact exec_withLanes (s := countCommand s) hphase hexec A

theorem step_withLanes {s t : State} (hphase : s.phase = .uninit) (h : step s = .next t) (A : Lanes) :
    step (withLanes A s) = .next t ∨ (t.phase = .uninit ∧ step (withLanes A s) = .next (withLanes A t)) := by
  rcases step_cases h with ⟨hinputs, rfl⟩ | ⟨w, rest, hinputs, haccept⟩ | ⟨rest, hinputs, rfl⟩
  · exact .inr ⟨hphase, step_of_idle hinputs⟩
  · rw [step_of_input (s := withLanes A s) hinputs]
    exact accept_withLanes (s := { s with inputs := rest }) hphase haccept A
  · rw [step_of_input (s := withLanes A s) hinputs]
    exact .inl rfl

/-- Two states that differ in the lanes at most, and in nothing once a context exists. -/
def AgreeOnContext (s u : State) : Prop := ∃ A, u = withLanes A s ∧ (s.phase ≠ .uninit → s = u)

theorem AgreeOnContext.refl (s : State) : AgreeOnContext s s := ⟨s.lanes, rfl, fun _ => rfl⟩

theorem AgreeOnContext.of_uninit {s : State} (h : s.phase = .uninit) (A : Lanes) : AgreeOnContext s (withLanes A s) :=
  ⟨A, rfl, fun hp => absurd h hp⟩

theorem step_keeps_agreeOnContext {s t u : State} (h : AgreeOnContext s u) (hstep : step s = .next t) :
    ∃ v, step u = .next v ∧ AgreeOnContext t v := by
  obtain ⟨A, rfl, hsame⟩ := h
  by_cases hphase : s.phase = .uninit
  · rcases step_withLanes hphase hstep A with h | ⟨ht, h⟩
    · exact ⟨t, h, .refl t⟩
    · exact ⟨_, h, .of_uninit ht A⟩
  · rw [← hsame hphase]
    exact ⟨t, hstep, .refl t⟩

theorem run_keeps_agreeOnContext (n : Nat) {s u : State} (hinv : s.Inv) (h : AgreeOnContext s u) :
    ∃ t v, Host.Core.run Sys2Proof.core n s = .next t ∧ Host.Core.run Sys2Proof.core n u = .next v ∧
      AgreeOnContext t v := by
  induction n generalizing s u with
  | zero => exact ⟨s, u, rfl, rfl, h⟩
  | succ n ih =>
    obtain ⟨t, hs⟩ := step_answers hinv
    obtain ⟨v, hu, h'⟩ := step_keeps_agreeOnContext h hs
    rw [run_succ_of_step hs, run_succ_of_step hu]
    exact ih (stepKeepsContextInvariant s t hinv hs) h'

/-- Settles O35: two states that agree but for lanes of no context step to two such states, and STATUS and the output stream
show no lane. -/
theorem lanesBeforeInitUnobservable : Obligations.LanesBeforeInitUnobservable := by
  intro A B presented n
  have hinv : State.Inv { State.reset with lanes := A, inputs := presented } := resetMeetsContextInvariant
  obtain ⟨t, -, ht, hu, C, rfl, hsame⟩ := run_keeps_agreeOnContext n hinv (.of_uninit rfl B)
  exact ⟨t, _, ht, hu, (observed_withLanes C t).symm, hsame⟩

end Sys2Proof.Machine
end

section
/-! PROOF. STATUS field by field, and the values after reset (10_state.md R20, R23, R33). -/

namespace Sys2Proof.Machine

/-- A field of STATUS is what stands at its bits. -/
theorem statusWord_field {s : State} {start len : Nat} {x : BitVec len}
    (h : ∀ i < len, (statusWord s).getLsbD (start + i) = x.getLsbD i) : (statusWord s).extractLsb' start len = x := by
  apply BitVec.eq_of_getLsbD_eq
  intro i hi
  rw [BitVec.getLsbD_extractLsb', h i hi]
  simp [hi]

theorem phaseCode_injective : Function.Injective phaseCode := by
  intro p q
  cases p <;> cases q <;> decide

theorem statusWord_phase (s : State) : (statusWord s).extractLsb' 0 2 = phaseCode s.phase :=
  statusWord_field fun i hi => by rw [getLsbD_statusWord]; simp [hi]

/-- The two lowest bits of STATUS are a phase's code exactly in that phase. -/
theorem statusWord_phase_iff (s : State) (p : Phase) : (statusWord s).extractLsb' 0 2 = phaseCode p ↔ s.phase = p := by
  rw [statusWord_phase, phaseCode_injective.eq_iff]

/-- Settles O48: each field from the bit-by-bit reading of STATUS (`getLsbD_statusWord`), PHASE by the four codes' being
distinct. -/
theorem statusFields : Obligations.StatusFields := by
  intro s
  refine ⟨statusWord_field ?_, statusWord_field ?_, statusWord_field ?_, statusWord_field ?_, statusWord_field ?_,
    statusWord_field ?_, getLsbD_statusWord s 31, statusWord_phase_iff s .uninit, statusWord_phase_iff s .initialized,
    statusWord_phase_iff s .finalized, statusWord_phase_iff s .squeezeReady⟩
  all_goals
    intro i hi
    grind [getLsbD_statusWord]

/-- Settles O11, by evaluation of the reset state. -/
theorem resetStateValues : Obligations.ResetStateValues := by
  refine ⟨rfl, rfl, rfl, rfl, rfl, rfl, rfl, rfl, by decide, fun p hrst => ?_⟩
  simp [portOutputs, OutputPins.outValid, offeredByte, PortState.reset, State.reset, hrst]

end Sys2Proof.Machine
end

section
/-! PROOF. The port level: its invariant, the transfer of bytes and the offered word (10_state.md R22, R30 to R32), and that one
command at the pins is one accepted word of the transaction level (10_state.md R15). -/

namespace Sys2Proof.Machine

/-- An accepted word leaves BUSY alone and only appends to the output stream. -/
theorem accept_busy_and_out {w : CommandWord} {s t : State} (h : accept w s = .next t) :
    t.busy = s.busy ∧ ∃ bytes, t.out = s.out ++ bytes := by
  rcases accept_next h with ⟨-, rfl⟩ | ⟨-, -, rfl⟩ | ⟨-, i, -, hexec⟩
  · exact ⟨rfl, [], by simp⟩
  · exact ⟨by simp, [], by simp⟩
  · rcases exec_raises_or_emits hexec with ⟨m, rfl⟩ | ⟨-, -, hbusy, bytes, hout, -⟩
    · exact ⟨by simp, [], by simp⟩
    · exact ⟨hbusy, bytes, hout⟩

/-- Settles O50: acceptance puts in flight what the result has beyond the stream so far, and each cycle moves bytes from the
command in flight to the stream. -/
theorem tickKeepsPortInvariant : Obligations.TickKeepsPortInvariant := by
  refine ⟨⟨rfl, nofun⟩, fun p s t hinv htick => ?_⟩
  obtain ⟨hbusy, hjob⟩ := hinv
  obtain ⟨-, ⟨-, rfl⟩ | ⟨-, j, hj, rfl⟩ | ⟨-, hidle, -, hstart⟩ | ⟨-, hidle, -, rfl⟩⟩ := tick_cases htick
  · exact ⟨rfl, nofun⟩
  · obtain ⟨hresult, hout⟩ := hjob j hj
    rcases runJob_cases p s j with ⟨-, -, hrun⟩ | ⟨-, hrun⟩ <;> rw [hrun]
    · exact ⟨hresult, nofun⟩
    · refine ⟨by simpa [hj] using hbusy, fun k hk => ?_⟩
      cases hk
      exact ⟨hresult, by rw [advanceJob_result, hout, List.append_assoc, transferredBytes_append]⟩
  · rw [hidle] at hbusy
    rcases startJob_next hstart with ⟨-, rfl⟩ | ⟨-, r, haccept, rfl⟩
    · exact ⟨hbusy, nofun⟩
    · obtain ⟨hkept, bytes, hout⟩ := accept_busy_and_out haccept
      refine ⟨rfl, fun k hk => ?_⟩
      cases hk
      exact ⟨hkept.trans hbusy, by simp [hout]⟩
  · exact ⟨hbusy, hjob⟩

/-- Settles O54: a command in flight moves to the stream what it transfers, its last bytes in the cycle it completes. -/
theorem byteTransferNeedsBothSides : Obligations.ByteTransferNeedsBothSides := by
  intro p s t hinv hrst htick
  obtain ⟨-, hjob⟩ := hinv
  have hdata : (portOutputs p s).outData = offeredByte s.job := by simp [portOutputs, hrst]
  rw [hdata]
  obtain ⟨-, ⟨hreset, -⟩ | ⟨-, j, hj, rfl⟩ | ⟨-, hidle, -, hstart⟩ | ⟨-, hidle, -, rfl⟩⟩ := tick_cases htick
  · simp [hrst] at hreset
  · rw [hj]
    obtain ⟨-, hout⟩ := hjob j hj
    rcases runJob_cases p s j with ⟨-, hlast, hrun⟩ | ⟨-, hrun⟩ <;> rw [hrun]
    · have hall := transferredBytes_append p j
      rw [hlast, List.append_nil] at hall
      rw [hout, ← hall]
      rfl
    · rfl
  · rcases startJob_next hstart with ⟨-, rfl⟩ | ⟨-, r, -, rfl⟩ <;> simp [hidle, offeredByte]
  · simp [hidle, offeredByte]

/-- Settles O56, by `tick`'s first test. -/
theorem changedOfferIsRefused : Obligations.ChangedOfferIsRefused := by
  intro p s w hoffered hvalid hother
  have hchanges : changesOffered p s = true := by simp [changesOffered, hoffered, hvalid, hother]
  simp [tick, hchanges]

/-- Settles O49: a locked core discards the word in its first cycle; any other core puts in flight a command that completes
after the cycles it has left (`ticks_promptPins_complete`). -/
theorem portCommandRefinesAccept : Obligations.PortCommandRefinesAccept := by
  intro w s t _ haccept
  cases herr : s.err with
  | true =>
    rw [accept_locked w herr] at haccept
    cases haccept
    exact ⟨0, ticks_cons_of_tick (by simp [tick, changesOffered, startJob, herr]) []⟩
  | false =>
    obtain ⟨n, hn⟩ := Nat.exists_eq_add_of_le' (acceptedJob w s t).one_le_cyclesLeft
    have hstart : tick ⟨false, true, w, false⟩ ⟨s, none, none⟩ = .next ⟨busyRegs s, some (acceptedJob w s t), none⟩ :=
      startJob_of_accept herr haccept
    exact ⟨n + 1, (ticks_cons_of_tick hstart _).trans (ticks_promptPins_complete n _ _ hn)⟩

end Sys2Proof.Machine
end

section
/-! PROOF. The state byte space (20_memory.md R34, R35, R38, R39): what a byte read returns and a byte write sets, bit by bit,
the two views of the lane file, and that no step leaves the space. -/

namespace Sys2Proof.Machine

/-! ### One byte, bit by bit -/

theorem getLsbD_byteAt (A : Lanes) (b : Fin 200) {k : Nat} (hk : k < 8) :
    (byteAt A b).getLsbD k = A[laneOfByte b].getLsbD (bitOfByte b + k) := by
  simp [byteAt, hk]

/-- Bit `j` of a lane is one of the eight bits of byte `b` exactly when `j div 8` is `b mod 8`, and then it is the byte's bit
`j mod 8` (20_memory.md R34). -/
theorem getLsbD_setByteAt (A : Lanes) (b : Fin 200) (x : Byte) (i : Fin 25) {j : Nat} (hj : j < 64) :
    (setByteAt A b x)[i].getLsbD j =
      if i = laneOfByte b ∧ j / 8 = b.val % 8 then x.getLsbD (j % 8) else A[i].getLsbD j := by
  unfold setByteAt
  by_cases hlane : i = laneOfByte b
  · have hbits : (bitOfByte b ≤ j ∧ j < bitOfByte b + 8) ↔ j / 8 = b.val % 8 := by unfold bitOfByte; omega
    simp only [hlane, Fin.getElem_fin, Vector.getElem_set_self, getLsbD_replaceByte _ _ _ _ hj, hbits, true_and]
    split
    · next hbyte => rw [show j - bitOfByte b = j % 8 by unfold bitOfByte; omega]
    · rfl
  · have hval : (laneOfByte b).val ≠ i.val := fun h => hlane (Fin.ext h.symm)
    simp [hlane, hval]

/-- Settles O45, from what one byte read and one byte write do to each bit of the lane file. -/
theorem byteViewReadWrite : Obligations.ByteViewReadWrite := by
  refine ⟨fun s b => ⟨_, memRead_ok s b.isLt, fun k => getLsbD_byteAt s.lanes b k.isLt⟩,
    fun s b v => ⟨_, memWrite_ok s v b.isLt, fun i j => ?_⟩, fun b => ⟨rfl, rfl⟩⟩
  rw [getLsbD_setByteAt _ _ _ _ j.isLt]
  simp only [Fin.ext_iff, laneOfByte_val]

/-! ### The two views of the lane file -/

@[simp] theorem getElem_lanesOfBytes (bytes : Vector Byte 200) (i : Fin 25) :
    (lanesOfBytes bytes)[i] = laneOf bytes i := by
  simp [lanesOfBytes_eq]

/-- The bits of a lane made of eight bytes: byte `j` stands above the `j` bytes before it. -/
theorem getLsbD_laneOf (bytes : Vector Byte 200) (i : Fin 25) {j k : Nat} (hj : j < 8) (hk : k < 8) :
    (laneOf bytes i).getLsbD (8 * j + k) = bytes[8 * i.val + j].getLsbD k := by
  simp only [laneOf, BitVec.getLsbD_append, Nat.sub_sub]
  interval_cases j <;> grind

theorem byteAt_lanesOfBytes (bytes : Vector Byte 200) (b : Fin 200) : byteAt (lanesOfBytes bytes) b = bytes[b] := by
  apply BitVec.eq_of_getLsbD_eq
  intro k hk
  rw [getLsbD_byteAt _ _ hk, getElem_lanesOfBytes, bitOfByte, getLsbD_laneOf _ _ (Nat.mod_lt _ (by decide)) hk]
  simp only [laneOfByte_val, Nat.div_add_mod, Fin.getElem_fin]

/-- Settles O46: the byte view of the lanes made of some bytes is those bytes (`byteAt_lanesOfBytes`), and a lane file is
determined by its byte view (`lanes_ext_byteAt`). -/
theorem viewsConvertWithoutLoss : Obligations.ViewsConvertWithoutLoss := by
  refine ⟨fun A => lanes_ext_byteAt fun b => ?_, fun bytes => Vector.ext fun b hb => ?_, fun s b => ?_,
    fun bytes i => getElem_lanesOfBytes bytes i⟩
  · rw [byteAt_lanesOfBytes, Fin.getElem_fin, getElem_bytesOfLanes]
  · rw [getElem_bytesOfLanes, byteAt_lanesOfBytes, Fin.getElem_fin]
  · rw [memRead_ok s b.isLt, Fin.getElem_fin, getElem_bytesOfLanes]

/-! ### The bounds of the space -/

/-- Settles O47, by the two cases of the bounds test of a byte read and of a byte write. -/
theorem onlyStateBytesExist : Obligations.OnlyStateBytesExist := by
  intro s b v
  constructor
  · intro h
    exact ⟨⟨_, memRead_ok s h⟩, _, memWrite_ok s v h⟩
  · intro h
    exact ⟨memRead_out s (Nat.not_lt.mpr h), memWrite_out s v (Nat.not_lt.mpr h)⟩

/-- Settles O14: in a state that meets the invariants every byte index a command computes is below 200 (`step_answers`). -/
theorem stepAnswersNextState : Obligations.StepAnswersNextState := fun _ h => step_answers h

end Sys2Proof.Machine
end

section
/-! PROOF. Decode and encode (30_encoding.md R48 to R53): a word is what its three fields say, `decode` and `encode` are inverse
to each other, and a word that is no command's takes the fault entry. -/

namespace Sys2Proof

open Laws.ReservedBitsZero (reservedField_commandWord)

/-! ### The fields of a word as numbers (30_encoding.md R48, R49) -/

theorem opcodeField_toNat (w : CommandWord) : (opcodeField w).toNat = w.toNat / 4096 := by
  have := w.isLt
  rw [opcodeField, BitVec.extractLsb'_toNat, Nat.shiftRight_eq_div_pow]
  omega

theorem reservedField_toNat (w : CommandWord) : (reservedField w).toNat = w.toNat / 256 % 16 := by
  rw [reservedField, BitVec.extractLsb'_toNat, Nat.shiftRight_eq_div_pow]

theorem immediateField_toNat (w : CommandWord) : (immediateField w).toNat = w.toNat % 256 := by
  rw [immediateField, BitVec.extractLsb'_toNat, Nat.shiftRight_zero]

theorem commandWord_toNat (opc : BitVec 4) (imm : Byte) :
    (commandWord opc imm).toNat = 4096 * opc.toNat + imm.toNat := by
  rw [commandWord, BitVec.toNat_append, BitVec.toNat_append, ← Nat.shiftLeft_add_eq_or_of_lt (0#4).isLt,
    ← Nat.shiftLeft_add_eq_or_of_lt imm.isLt, Nat.shiftLeft_eq, Nat.shiftLeft_eq]
  simp
  omega

/-- The mask of a row of format I leaves the upper byte of the word. -/
theorem upperByteMask_toNat (w : CommandWord) : (w &&& 0xFF00#16).toNat = w.toNat / 256 * 256 := by
  have hshift : w &&& 0xFF00#16 = w >>> 8 <<< 8 := by
    apply BitVec.eq_of_getLsbD_eq
    intro k hk
    interval_cases k <;> simp
  have := w.isLt
  rw [hshift, BitVec.toNat_shiftLeft, BitVec.toNat_ushiftRight, Nat.shiftLeft_eq, Nat.shiftRight_eq_div_pow]
  omega

/-! ### A word and its fields -/

@[simp] theorem opcodeField_commandWord (opc : BitVec 4) (imm : Byte) : opcodeField (commandWord opc imm) = opc := by
  have := imm.isLt
  apply BitVec.eq_of_toNat_eq
  rw [opcodeField_toNat, commandWord_toNat]
  omega

@[simp] theorem immediateField_commandWord (opc : BitVec 4) (imm : Byte) : immediateField (commandWord opc imm) = imm := by
  have := imm.isLt
  apply BitVec.eq_of_toNat_eq
  rw [immediateField_toNat, commandWord_toNat]
  omega

/-- A word with RSV = 0 is made of its two other fields. -/
theorem commandWord_fields {w : CommandWord} (h : reservedField w = 0#4) :
    commandWord (opcodeField w) (immediateField w) = w := by
  have hzero : w.toNat / 256 % 16 = 0 := by rw [← reservedField_toNat, h]; rfl
  apply BitVec.eq_of_toNat_eq
  rw [commandWord_toNat, opcodeField_toNat, immediateField_toNat]
  omega

/-- A row's match and mask fix the upper byte of a word, and the operand is the lower one (30_encoding.md R51). -/
theorem commandWord_eq_iff (opc : BitVec 4) (imm : Byte) (w : CommandWord) :
    commandWord opc imm = w ↔ w &&& 0xFF00#16 = commandWord opc 0#8 ∧ imm.toNat = w.toNat % 256 := by
  have := imm.isLt
  simp only [← BitVec.toNat_inj, upperByteMask_toNat, commandWord_toNat, BitVec.toNat_ofNat]
  omega

/-! ### Decode and encode (30_encoding.md R51, R52) -/

theorem decodeFormatN_ok {i j : Instr} {imm : Byte} (h : decodeFormatN i imm = .ok j) : imm = 0#8 ∧ j = i := by
  unfold decodeFormatN at h
  split at h
  · next himm =>
    cases h
    exact ⟨himm, rfl⟩
  · cases h

/-- The legal words: RSV is 0, the opcode selects the command, and a command of format N has no operand. -/
theorem decode_ok_cases {w : CommandWord} {i : Instr} (h : decode w = .ok i) :
    reservedField w = 0#4 ∧
    ((opcodeField w = 0x1#4 ∧ i = .init (immediateField w).toNat) ∨
     (opcodeField w = 0x2#4 ∧ i = .absorb (immediateField w)) ∨
     (opcodeField w = 0x3#4 ∧ immediateField w = 0#8 ∧ i = .final) ∨
     (opcodeField w = 0x4#4 ∧ immediateField w = 0#8 ∧ i = .xof) ∨
     (opcodeField w = 0x5#4 ∧ i = .squeeze (immediateField w).toNat)) := by
  unfold decode at h
  split_ifs at h with hrsv hinit habsorb hfinal hxof hsqueeze
  all_goals refine ⟨not_not.mp hrsv, ?_⟩
  · cases h
    exact .inl ⟨hinit, rfl⟩
  · cases h
    exact .inr (.inl ⟨habsorb, rfl⟩)
  · exact .inr (.inr (.inl ⟨hfinal, decodeFormatN_ok h⟩))
  · exact .inr (.inr (.inr (.inl ⟨hxof, decodeFormatN_ok h⟩)))
  · cases h
    exact .inr (.inr (.inr (.inr ⟨hsqueeze, rfl⟩)))

/-- Settles O1: the fields of `commandWord` are what it was made of, and an operand below 256 survives in eight bits. -/
theorem decodeOfEncode : Obligations.DecodeOfEncode := by
  intro i hwf
  cases i with
  | init L =>
    have hL : L < 256 := of_decide_eq_true hwf
    simp [encode, decode, reservedField_commandWord, Nat.mod_eq_of_lt hL]
  | absorb m => simp [encode, decode, reservedField_commandWord]
  | final => simp [encode, decode, reservedField_commandWord, decodeFormatN]
  | xof => simp [encode, decode, reservedField_commandWord, decodeFormatN]
  | squeeze n =>
    have hn : n < 256 := of_decide_eq_true hwf
    simp [encode, decode, reservedField_commandWord, Nat.mod_eq_of_lt hn]

/-- Settles O2: a legal word is made of its opcode and its operand (`commandWord_fields`). -/
theorem encodeOfDecode : Obligations.EncodeOfDecode := by
  intro w i hdecode
  obtain ⟨hrsv, hcases⟩ := decode_ok_cases hdecode
  have hword := commandWord_fields hrsv
  have hfits : operandFits (immediateField w).toNat = true := decide_eq_true (immediateField w).isLt
  rcases hcases with ⟨hopc, rfl⟩ | ⟨hopc, rfl⟩ | ⟨hopc, himm, rfl⟩ | ⟨hopc, himm, rfl⟩ | ⟨hopc, rfl⟩
  · exact ⟨hfits, by rw [encode, ← hopc, BitVec.ofNat_toNat, BitVec.setWidth_eq, hword]⟩
  · exact ⟨rfl, by rw [encode, ← hopc, hword]⟩
  · exact ⟨rfl, by rw [encode, ← hopc, ← himm, hword]⟩
  · exact ⟨rfl, by rw [encode, ← hopc, ← himm, hword]⟩
  · exact ⟨hfits, by rw [encode, ← hopc, BitVec.ofNat_toNat, BitVec.setWidth_eq, hword]⟩

theorem decode_eq_ok_iff (w : CommandWord) (i : Instr) : decode w = .ok i ↔ i.wellFormed = true ∧ encode i = w := by
  refine ⟨encodeOfDecode w i, ?_⟩
  rintro ⟨hwf, rfl⟩
  exact decodeOfEncode i hwf

/-- An operand that fits IMM8 stands in the word as it is: the word has the row's upper byte and the operand as its lower one. -/
theorem operandFits_and_commandWord_iff (opc : BitVec 4) (n : Nat) (w : CommandWord) :
    (operandFits n = true ∧ commandWord opc (BitVec.ofNat 8 n) = w) ↔
      w &&& 0xFF00#16 = commandWord opc 0#8 ∧ n = w.toNat % 256 := by
  rw [operandFits, decide_eq_true_iff, commandWord_eq_iff, BitVec.toNat_ofNat]
  constructor
  · rintro ⟨hn, hmatch, heq⟩
    exact ⟨hmatch, by omega⟩
  · rintro ⟨hmatch, heq⟩
    exact ⟨by omega, hmatch, by omega⟩

/-- Settles O3: a word decodes to the commands it encodes (`decode_eq_ok_iff`), and a row's match and mask compare the upper
byte, or the whole word where there is no operand. -/
theorem decodeByMatchAndMask : Obligations.DecodeByMatchAndMask := by
  intro w
  have hwhole : w &&& 0xFFFF#16 = w := BitVec.and_allOnes
  refine ⟨fun L => ?_, fun m => ?_, ?_, ?_, fun n => ?_⟩ <;> rw [decode_eq_ok_iff]
  · exact operandFits_and_commandWord_iff 0x1#4 L w
  · exact (and_iff_right rfl).trans (commandWord_eq_iff 0x2#4 m w)
  · rw [hwhole]
    exact (and_iff_right rfl).trans eq_comm
  · rw [hwhole]
    exact (and_iff_right rfl).trans eq_comm
  · exact operandFits_and_commandWord_iff 0x5#4 n w

/-- Settles O4, by evaluation of the decoder on the ten words. -/
theorem decodesWrittenOutWords : Obligations.DecodesWrittenOutWords :=
  ⟨rfl, rfl, rfl, rfl, rfl, rfl, rfl, rfl, rfl, rfl⟩

end Sys2Proof

namespace Sys2Proof.Machine

/-- Settles O5: no reserved word is one of the legal ones (`decode_ok_cases`), so it is Illegal and takes the fault entry. -/
theorem reservedWordsTakeBadCommand : Obligations.ReservedWordsTakeBadCommand := by
  intro w s herr hreserved
  change reservedField w ≠ 0#4 ∨ (opcodeField w = 0#4 ∨ 6 ≤ (opcodeField w).toNat) ∨
    ((opcodeField w = 3#4 ∨ opcodeField w = 4#4) ∧ immediateField w ≠ 0#8) at hreserved
  cases hdecode : decode w with
  | ok i =>
    obtain ⟨hrsv, hcases⟩ := decode_ok_cases hdecode
    rcases hcases with ⟨hopc, -⟩ | ⟨hopc, -⟩ | ⟨hopc, himm, -⟩ | ⟨hopc, himm, -⟩ | ⟨hopc, -⟩ <;> simp_all
  | error e =>
    rw [accept_illegal herr hdecode, raise_of_not_err .badCommand (s := countCommand s) herr]
    rfl

end Sys2Proof.Machine
end

section
/-! PROOF. The pseudo-instructions and the assembler (30_encoding.md R55, R56): every command they make has an encoding, and
SQUEEZEN N is one squeeze of N bytes. -/

namespace Sys2Proof.Machine

/-! ### SQUEEZEN: how N bytes are split into commands -/

/-- The counts of the SQUEEZE commands of `SQUEEZEN N` (30_encoding.md R56). -/
def squeezeCounts (N : Nat) : List Nat := List.replicate (N / 255) 255 ++ if N % 255 = 0 then [] else [N % 255]

theorem expand_squeezeN (N : Nat) : expand (.squeezeN N) = (squeezeCounts N).map .squeeze := by
  rw [expand, squeezeCounts, List.map_append, List.map_replicate]
  split <;> rfl

theorem squeezeCounts_sum (N : Nat) : (squeezeCounts N).sum = N := by
  rw [squeezeCounts, List.sum_append, List.sum_replicate, smul_eq_mul]
  split <;> simp <;> omega

theorem squeezeCounts_lt {N n : Nat} (h : n ∈ squeezeCounts N) : n < 256 := by
  rw [squeezeCounts, List.mem_append] at h
  rcases h with hfull | hrest
  · rw [List.eq_of_mem_replicate hfull]
    decide
  · split at hrest
    · cases hrest
    · rw [List.mem_singleton] at hrest
      omega

/-! ### Squeezes in a row (41_sponge.md R79) -/

theorem exec_squeeze_ready (n : Nat) {s : State} (h : s.phase = .squeezeReady) :
    exec (.squeeze n) s = outcomeOf (squeezeBytes n s) := by
  simp [exec, execSqueeze, squeezeMisuse, h]

theorem squeezeBytes_phase {n : Nat} {s t : State} (h : squeezeBytes n s = .ok t) : t.phase = s.phase := by
  obtain ⟨A, p, bs, -, rfl⟩ := squeezeBytes_inv h
  rfl

/-- Any split of a count into SQUEEZE commands is one squeeze of the whole count: a squeeze stays in SQUEEZE_READY, and its loop
goes on where the last one stopped (`squeezeBytes_add`). -/
theorem execAll_squeezes (counts : List Nat) :
    ∀ {s : State}, s.phase = .squeezeReady → execAll (counts.map .squeeze) s = exec (.squeeze counts.sum) s := by
  induction counts with
  | nil =>
    intro s h
    rw [exec_squeeze_ready _ h]
    rfl
  | cons n counts ih =>
    intro s h
    rw [List.map_cons, execAll, exec_squeeze_ready _ h, exec_squeeze_ready _ h, List.sum_cons, squeezeBytes_add]
    cases hfirst : squeezeBytes n s with
    | error f => rfl
    | ok t =>
      have ht : t.phase = .squeezeReady := (squeezeBytes_phase hfirst).trans h
      exact (ih ht).trans (exec_squeeze_ready _ ht)

/-! ### Every expansion is encodable -/

/-- Every command of a program has an encoding. -/
def Encodable (is : List Instr) : Prop := ∀ i ∈ is, i.wellFormed = true

theorem encodable_singleton {i : Instr} (h : i.wellFormed = true) : Encodable [i] := by
  simpa [Encodable] using h

theorem encodable_absorbs (message : List Byte) : Encodable (expand (.absorbs message)) := by
  intro i hi
  obtain ⟨m, -, rfl⟩ := List.mem_map.mp hi
  rfl

theorem encodable_squeezeN (N : Nat) : Encodable (expand (.squeezeN N)) := by
  rw [expand_squeezeN]
  intro i hi
  obtain ⟨n, hn, rfl⟩ := List.mem_map.mp hi
  exact decide_eq_true (squeezeCounts_lt hn)

theorem encodable_hash {L : Nat} (hL : operandFits L = true) (message : List Byte) :
    Encodable (expand (.hash L message)) := by
  intro i hi
  rw [expand, List.mem_cons, List.mem_append, List.mem_singleton] at hi
  rcases hi with rfl | habsorb | rfl
  · exact hL
  · exact encodable_absorbs message i habsorb
  · rfl

/-- Settles O24: the counts of the expansion fit IMM8 and add up to N, and squeezes in a row are one squeeze of their sum
(`execAll_squeezes`). -/
theorem squeezeNExpansionIsOneSqueeze : Obligations.SqueezeNExpansionIsOneSqueeze := by
  intro N s hphase
  refine ⟨encodable_squeezeN N, ?_⟩
  rw [expand_squeezeN, execAll_squeezes _ hphase, squeezeCounts_sum]

/-! ### Every line the assembler accepts is encodable -/

/-- Whatever an assembler result emits has an encoding. -/
def EmitsEncodable (r : Except AssemblerError (List Instr)) : Prop := ∀ is, r = .ok is → Encodable is

theorem emitsEncodable_error (e : AssemblerError) : EmitsEncodable (.error e) := nofun

theorem emitsEncodable_ok {is : List Instr} (h : Encodable is) : EmitsEncodable (.ok is) := by
  rintro _ ⟨⟩
  exact h

theorem emitsEncodable_ite {c : Prop} [Decidable c] {r q : Except AssemblerError (List Instr)}
    (hr : EmitsEncodable r) (hq : EmitsEncodable q) : EmitsEncodable (if c then r else q) := by
  split
  · exact hr
  · exact hq

theorem readOperand_fits {text : List Char} {n : Nat} (h : readOperand text = .ok n) : operandFits n = true := by
  unfold readOperand at h
  split at h
  · split at h
    · next hfits =>
      cases h
      exact hfits
    · cases h
  · cases h

theorem withoutOperand_encodable {i : Instr} (h : i.wellFormed = true) (operands : List (List Char)) :
    EmitsEncodable (withoutOperand [i] operands) := by
  cases operands with
  | nil => exact emitsEncodable_ok (encodable_singleton h)
  | cons => exact emitsEncodable_error _

theorem withOneOperand_encodable {read : List Char → Except AssemblerError Nat} {make : Nat → List Instr}
    (h : ∀ t n, read t = .ok n → Encodable (make n)) : ∀ operands, EmitsEncodable (withOneOperand read make operands)
  | [] => emitsEncodable_error _
  | [t] => by
    rw [withOneOperand]
    cases hread : read t with
    | ok n => exact emitsEncodable_ok (h t n hread)
    | error e => exact emitsEncodable_error e
  | _ :: _ :: _ => emitsEncodable_error _

/-- A command whose operand the assembler has checked. -/
theorem withCheckedOperand_encodable {make : Nat → Instr} (h : ∀ n, operandFits n = true → (make n).wellFormed = true)
    (operands : List (List Char)) : EmitsEncodable (withOneOperand readOperand (fun n => [make n]) operands) :=
  withOneOperand_encodable (fun _ n hread => encodable_singleton (h n (readOperand_fits hread))) operands

theorem withBytes_encodable {make : List Byte → List Instr} (h : ∀ bs, Encodable (make bs)) (operands : List (List Char)) :
    EmitsEncodable (withBytes make operands) := by
  unfold withBytes
  split
  · exact emitsEncodable_ok (h _)
  · exact emitsEncodable_error _

theorem withLengthAndBytes_encodable : ∀ operands, EmitsEncodable (withLengthAndBytes operands)
  | [] => emitsEncodable_error _
  | t :: ts => by
    rw [withLengthAndBytes]
    cases hread : readOperand t with
    | ok L => exact withBytes_encodable (encodable_hash (readOperand_fits hread)) ts
    | error e => exact emitsEncodable_error e

/-- One case per mnemonic, in the order in which `assembleWords` tests them. -/
theorem assembleWords_encodable (mnemonic : String) (operands : List (List Char)) :
    EmitsEncodable (assembleWords mnemonic operands) := by
  unfold assembleWords
  refine emitsEncodable_ite (withCheckedOperand_encodable (make := .init) (fun _ hfits => hfits) operands) <|
    emitsEncodable_ite (withCheckedOperand_encodable (fun _ _ => rfl) operands) <|
    emitsEncodable_ite (withoutOperand_encodable rfl operands) <|
    emitsEncodable_ite (withoutOperand_encodable rfl operands) <|
    emitsEncodable_ite (withCheckedOperand_encodable (make := .squeeze) (fun _ hfits => hfits) operands) <|
    emitsEncodable_ite (withoutOperand_encodable rfl operands) <|
    emitsEncodable_ite (withoutOperand_encodable rfl operands) <|
    emitsEncodable_ite (withoutOperand_encodable rfl operands) <|
    emitsEncodable_ite (withoutOperand_encodable rfl operands) <|
    emitsEncodable_ite (withoutOperand_encodable rfl operands) <|
    emitsEncodable_ite (withoutOperand_encodable rfl operands) <|
    emitsEncodable_ite (withBytes_encodable encodable_absorbs operands) <|
    emitsEncodable_ite (withOneOperand_encodable (fun _ N _ => encodable_squeezeN N) operands) <|
    emitsEncodable_ite (withLengthAndBytes_encodable operands) <|
    emitsEncodable_error _

/-- Settles O6: a line is empty or a mnemonic with its operands, and every mnemonic's commands have an encoding
(`assembleWords_encodable`). -/
theorem assembledCommandsWellFormed : Obligations.AssembledCommandsWellFormed := by
  intro line is hline
  unfold assembleLine at hline
  split at hline
  · cases hline
    exact nofun
  · exact assembleWords_encodable _ _ is hline

end Sys2Proof.Machine
end

section
/-! PROOF. The steps of the permutation one at a time (40_permutation.md R57 to R68): each step in the coordinates of
00_scope.md R11, what it does to the all-zero state, the round constants, and the rounds in groups. -/

namespace Sys2Proof.Machine

/-! ### Lanes -/

theorem lanes_ext {A B : Lanes} (h : ∀ i : Fin 25, A[i] = B[i]) : A = B :=
  Vector.ext fun i hi => h ⟨i, hi⟩

theorem zeroLanes_lane (i : Fin 25) : zeroLanes[i] = 0#64 := by
  simp [zeroLanes]

@[simp] theorem columnOf_laneIndex (x y : Fin 5) : columnOf (laneIndex x y) = x := by
  ext
  simp only [columnOf, laneIndex]
  omega

@[simp] theorem rowOf_laneIndex (x y : Fin 5) : rowOf (laneIndex x y) = y := by
  ext
  simp only [rowOf, laneIndex]
  omega

@[simp] theorem laneAt_zeroLanes (x y : Fin 5) : laneAt zeroLanes x y = 0#64 := zeroLanes_lane _

/-! ### Rotation -/

/-- The rule's rotation is the library's. -/
theorem rotl64_eq_rotateLeft (v : Lane) (n : Nat) : rotl64 v n = v.rotateLeft n := by
  unfold rotl64
  split
  next h =>
    have hout : v >>> 64 = 0#64 := BitVec.ushiftRight_eq_zero (Nat.le_refl 64)
    simp [BitVec.rotateLeft, BitVec.rotateLeftAux, h, hout]
  next => rfl

@[simp] theorem rotl64_of_zero (n : Nat) : rotl64 0#64 n = 0#64 := by
  simp [rotl64]

/-- A bit moves up by `n % 64`, or wraps around and moves down by `64 - n % 64`. -/
theorem getLsbD_rotl64 (v : Lane) (n : Nat) {i : Nat} (hi : i < 64) :
    (rotl64 v n).getLsbD ((i + n) % 64) = v.getLsbD i := by
  rw [rotl64_eq_rotateLeft, BitVec.getLsbD_rotateLeft]
  by_cases hwrap : i + n % 64 < 64
  · have hpos : (i + n) % 64 = i + n % 64 := by omega
    simp [hpos, hwrap]
  · have hpos : (i + n) % 64 = i + n % 64 - 64 := by omega
    have hlow : i + n % 64 - 64 < n % 64 := by omega
    have hback : 64 - n % 64 + (i + n % 64 - 64) = i := by omega
    simp [hpos, hlow, hback]

/-- Settles O36: the bits by `getLsbD_rotl64`, the rest by the two branches of `rotl64`. -/
theorem rotationMovesBits : Obligations.RotationMovesBits :=
  ⟨fun v n _ hi => getLsbD_rotl64 v n hi, fun _ _ hn => if_neg hn, fun _ => rfl, fun _ => rfl, by decide⟩

/-! ### Theta -/

theorem laneAt_theta (A : Lanes) (x y : Fin 5) : laneAt (theta A) x y = laneAt A x y ^^^ thetaEffect A x := by
  rw [laneAt, theta_lane, columnOf_laneIndex, laneAt]

theorem theta_of_even_columns {A : Lanes} (h : ∀ x, columnParity A x = 0#64) : theta A = A := by
  apply lanes_ext
  intro i
  have heffect : thetaEffect A (columnOf i) = 0#64 := by simp [thetaEffect, h]
  rw [theta_lane, heffect, BitVec.xor_zero]

theorem theta_zeroLanes : theta zeroLanes = zeroLanes :=
  theta_of_even_columns fun x => by simp [columnParity]

/-- Settles O41: the lanes by `laneAt_theta`, the unchanged states by `theta_of_even_columns`, the example by evaluation. -/
theorem thetaUsesInputParities : Obligations.ThetaUsesInputParities :=
  ⟨laneAt_theta, fun _ _ => rfl, theta_zeroLanes, fun _ => theta_of_even_columns, by decide +kernel⟩

/-! ### Chi -/

theorem laneAt_chi (A : Lanes) (x y : Fin 5) : laneAt (chi A) x y = chiLane A x y := by
  rw [laneAt, chi_lane, columnOf_laneIndex, rowOf_laneIndex]

theorem laneAt_chi_congr {A B : Lanes} {y : Fin 5} (h : ∀ x, laneAt A x y = laneAt B x y) (x : Fin 5) :
    laneAt (chi A) x y = laneAt (chi B) x y := by
  simp only [laneAt_chi, chiLane, h]

/-- A row that holds one value in all its lanes keeps it: a bit changes only where its right neighbour is 0 and the bit after
that is 1. -/
theorem laneAt_chi_of_constant_row {A : Lanes} {y : Fin 5} {v : Lane} (h : ∀ x, laneAt A x y = v) (x : Fin 5) :
    laneAt (chi A) x y = v := by
  simp [laneAt_chi, chiLane, h]

/-- Settles O42: the lanes by `laneAt_chi`, the rows of ones and of zeros by `laneAt_chi_of_constant_row`, the examples by
evaluation. -/
theorem chiActsOnRows : Obligations.ChiActsOnRows :=
  ⟨laneAt_chi, fun _ _ _ => laneAt_chi_congr, fun _ _ => laneAt_chi_of_constant_row, fun _ _ => laneAt_chi_of_constant_row,
    by decide +kernel, by decide +kernel⟩

/-! ### Rounds -/

theorem rho_zeroLanes : rho zeroLanes = zeroLanes := by
  apply lanes_ext
  intro i
  rw [rho_lane, zeroLanes_lane, rotl64_of_zero]

theorem pi_zeroLanes : pi zeroLanes = zeroLanes := by
  apply lanes_ext
  intro i
  rw [pi_lane, zeroLanes_lane, zeroLanes_lane]

theorem chi_zeroLanes : chi zeroLanes = zeroLanes := by
  apply lanes_ext
  intro i
  rw [chi_lane, zeroLanes_lane]
  simp [chiLane]

/-- Settles O43: every step before Iota keeps the all-zero state. -/
theorem roundOfZeroIsRoundConstant : Obligations.RoundOfZeroIsRoundConstant := by
  intro ir i
  rw [keccakRound_eq, theta_zeroLanes, rho_zeroLanes, pi_zeroLanes, chi_zeroLanes, iota_lane, zeroLanes_lane,
    BitVec.zero_xor]

/-- Settles O44: folding over the groups is folding over their concatenation. -/
theorem roundsInChunksAreKeccakF : Obligations.RoundsInChunksAreKeccakF := by
  intro chunks A hchunks
  rw [keccakF_eq, ← hchunks, keccakRounds, List.foldl_flatten]
  rfl

/-- Settles O37, by evaluation of the generator for each of the 24 rounds. -/
theorem lfsrRegeneratesRoundConstants : Obligations.LfsrRegeneratesRoundConstants :=
  ⟨by decide, by decide⟩

end Sys2Proof.Machine
end

section
/-! PROOF. Pi's lane map and the walk along its cycle (40_permutation.md R61, R64, R69, R70). -/

namespace Sys2Proof.Machine

/-- Settles O39, by comparison of the tables. -/
theorem walkTablesAgree : Obligations.WalkTablesAgree :=
  ⟨rfl, rfl, rfl, rfl, by decide⟩

/-! ### The walk's lanes -/

/-- The lane whose content the walk carries before step `k`: lane 1, then the lane the step before wrote. -/
def carriedLane (k : Fin 25) : Fin 25 := Fin.cases 1 (fun j => laneWalk[j]) k

@[simp] theorem carriedLane_succ (k : Fin 24) : carriedLane k.succ = laneWalk[k] := rfl

/-- Pi moves to the lane that step `k` writes the lane that is carried then. -/
theorem piSource_laneWalk (k : Fin 24) : piSource[laneWalk[k]] = carriedLane k.castSucc := by
  obtain ⟨-, -, -, hfirst, hnext⟩ := walkTablesAgree
  cases k using Fin.cases with
  | zero => exact hfirst
  | succ j => exact (hnext j).2

/-- Step `k` rotates by the carried lane's offset. -/
theorem rhoOffsets_carriedLane (k : Fin 24) : rhoOffsets[carriedLane k.castSucc] = rotationWalk[k] := by
  obtain ⟨-, -, hfirst, -, hnext⟩ := walkTablesAgree
  cases k using Fin.cases with
  | zero => exact hfirst
  | succ j => exact (hnext j).1

theorem laneWalk_injective : Function.Injective fun k : Fin 24 => laneWalk[k] := by decide

theorem laneWalk_ne_zero : ∀ k : Fin 24, laneWalk[k] ≠ 0 := by decide

theorem exists_laneWalk_eq : ∀ i : Fin 25, i ≠ 0 → ∃ k : Fin 24, laneWalk[k] = i := by decide

/-! ### Pi -/

theorem piSource_laneIndex : ∀ x y : Fin 5, piSource[laneIndex x y] = laneIndex (x + 3 * y) x := by decide

theorem laneAt_pi (A : Lanes) (x y : Fin 5) : laneAt (pi A) x y = laneAt A (x + 3 * y) x := by
  rw [laneAt, pi_lane, laneAt]
  exact congrArg (fun j : Fin 25 => A[j]) (piSource_laneIndex x y)

theorem laneAt_pi_target (A : Lanes) (x y : Fin 5) : laneAt (pi A) y (2 * x + 3 * y) = laneAt A x y := by
  have hcolumn : ∀ x y : Fin 5, y + 3 * (2 * x + 3 * y) = x := by decide
  rw [laneAt_pi, hcolumn]

/-- Following the sources from lane 1 goes through the walk backwards, since lane 1 is the last lane that the walk writes. -/
theorem iterate_piSource_one (k : Fin 25) : (fun j : Fin 25 => piSource[j])^[k.val] 1 = carriedLane k.rev := by
  induction k using Fin.induction with
  | zero => rfl
  | succ k ih =>
    rw [Fin.val_succ, Function.iterate_succ_apply', ← Fin.val_castSucc, ih, Fin.rev_castSucc, Fin.rev_succ]
    exact piSource_laneWalk k.rev

/-- Settles O38: the maps by `laneAt_pi` and `laneAt_pi_target`; the sources of lane 1 are the walk backwards
(`iterate_piSource_one`), and the walk visits every lane but lane 0. -/
theorem piMovesLanes : Obligations.PiMovesLanes := by
  refine ⟨laneAt_pi_target, laneAt_pi, rfl, fun A => pi_lane A 0, fun i hi => ?_, iterate_piSource_one (Fin.last 24)⟩
  obtain ⟨k, hk⟩ := exists_laneWalk_eq i hi
  exact ⟨k.rev, by rw [← Fin.val_castSucc, iterate_piSource_one, Fin.rev_castSucc, Fin.rev_rev, carriedLane_succ, hk]⟩

/-! ### The fused walk -/

/-- A loop invariant over the indices in increasing order. -/
theorem foldl_finRange_induction {α : Type} {n : Nat} {motive : Fin (n + 1) → α → Prop} {f : α → Fin n → α} {a : α}
    (zero : motive 0 a) (succ : ∀ k b, motive k.castSucc b → motive k.succ (f b k)) :
    motive (Fin.last n) ((List.finRange n).foldl f a) := by
  induction n with
  | zero => exact zero
  | succ n ih =>
    rw [List.finRange_succ_last, List.foldl_append, List.foldl_map]
    exact succ (Fin.last n) _ (ih (motive := fun k => motive k.castSucc) zero fun k => succ k.castSucc)

theorem fusedStep_lane (B : Lanes) (t : Lane) (k : Fin 24) (i : Fin 25) :
    (fusedStep (B, t) k).1[i] = if i = laneWalk[k] then rotl64 t rotationWalk[k] else B[i] := by
  simp [fusedStep, Vector.getElem_set, Fin.ext_iff, eq_comm]

theorem pi_rho_zero (A : Lanes) : (pi (rho A))[(0 : Fin 25)] = A[(0 : Fin 25)] := by
  rw [pi_lane]
  exact rho_lane A 0

theorem pi_rho_laneWalk (A : Lanes) (k : Fin 24) :
    (pi (rho A))[laneWalk[k]] = rotl64 A[carriedLane k.castSucc] rotationWalk[k] := by
  rw [pi_lane, rho_lane, ← rhoOffsets_carriedLane]
  exact congrArg (fun j : Fin 25 => rotl64 A[j] rhoOffsets[j]) (piSource_laneWalk k)

/-- What holds before step `k` of the walk from `A`: the lanes written are those of Pi of Rho, the others are still those
of `A`, and so is the carried lane. -/
structure Walked (A : Lanes) (k : Fin 25) (s : Lanes × Lane) : Prop where
  lane_zero : s.1[(0 : Fin 25)] = A[(0 : Fin 25)]
  written : ∀ j : Fin 24, j.castSucc < k → s.1[laneWalk[j]] = (pi (rho A))[laneWalk[j]]
  ahead : ∀ j : Fin 24, k ≤ j.castSucc → s.1[laneWalk[j]] = A[laneWalk[j]]
  carried : s.2 = A[carriedLane k]

theorem fusedStep_keeps_walked {A : Lanes} (k : Fin 24) (s : Lanes × Lane) (h : Walked A k.castSucc s) :
    Walked A k.succ (fusedStep s k) := by
  obtain ⟨B, t⟩ := s
  obtain ⟨hzero, hwritten, hahead, hcarried⟩ := h
  have kept : ∀ j : Fin 24, j ≠ k → (fusedStep (B, t) k).1[laneWalk[j]] = B[laneWalk[j]] := fun j hj => by
    rw [fusedStep_lane, if_neg fun heq => hj (laneWalk_injective heq)]
  refine ⟨?_, fun j hj => ?_, fun j hj => ?_, hahead k le_rfl⟩
  · rw [fusedStep_lane, if_neg (laneWalk_ne_zero k).symm]
    exact hzero
  · by_cases hjk : j = k
    · subst hjk
      rw [fusedStep_lane, if_pos rfl, pi_rho_laneWalk]
      exact congrArg (rotl64 · _) hcarried
    · rw [kept j hjk]
      exact hwritten j (Fin.castSucc_lt_castSucc_iff.2 (lt_of_le_of_ne (Fin.castSucc_lt_succ_iff.1 hj) hjk))
  · have hkj : k < j := Fin.succ_le_castSucc_iff.1 hj
    rw [kept j hkj.ne']
    exact hahead j (Fin.castSucc_le_castSucc_iff.2 hkj.le)

theorem rhoPiFused_eq (A : Lanes) : rhoPiFused A = pi (rho A) := by
  have hwalk : Walked A (Fin.last 24) ((List.finRange 24).foldl fusedStep (A, A[1])) :=
    foldl_finRange_induction (motive := Walked A) ⟨rfl, fun _ hj => absurd hj (Fin.not_lt_zero _), fun _ _ => rfl, rfl⟩
      fusedStep_keeps_walked
  apply lanes_ext
  intro i
  by_cases hi : i = 0
  · subst hi
    exact hwalk.lane_zero.trans (pi_rho_zero A).symm
  · obtain ⟨k, rfl⟩ := exists_laneWalk_eq i hi
    exact hwalk.written k (Fin.castSucc_lt_last k)

/-- Settles O40: the walk has written every lane but lane 0 when it ends (`rhoPiFused_eq`), so each of the 24 rounds is the
same with it. -/
theorem fusedWalkIsRhoThenPi : Obligations.FusedWalkIsRhoThenPi := by
  refine ⟨rhoPiFused_eq, fun A => ?_, fun A => ?_⟩
  · rw [rhoPiFused_eq]
    exact pi_rho_zero A
  · simp only [rhoPiFused_eq, ← keccakRound_eq]
    rw [keccakF_eq, keccakRounds]

end Sys2Proof.Machine
end

section
/-! PROOF. The commands one at a time (41_sponge.md R72 to R77): the exact next state of each in the phase that allows it, and
what no command writes. -/

namespace Sys2Proof.Machine

/-- Settles O7, by `accept_decoded` on the state with the word taken. -/
theorem stepRunsDecodedCommand : Obligations.StepRunsDecodedCommand := by
  intro s w rest i hinputs herr hdecode
  rw [step_of_input hinputs]
  exact accept_decoded (s := { s with inputs := rest }) herr hdecode

/-! ### INIT (41_sponge.md R73) -/

theorem exec_init_ok {L : Nat} (hL : L < 100) (s : State) : exec (.init L) s = .next (initContext L s) := by
  simp [exec, execInit, initMisuse, Nat.not_le.mpr hL]

theorem exec_init_misuse {L : Nat} (hL : 100 ≤ L) (s : State) : exec (.init L) s = .next (raise .badOutlen s) := by
  simp [exec, execInit, initMisuse, hL]

theorem decode_init_word {L : Nat} (hL : L < 256) : decode (0x1000#16 ||| BitVec.ofNat 16 L) = .ok (.init L) := by
  refine (decode_eq_ok_iff _ _).mpr ⟨decide_eq_true hL, BitVec.eq_of_toNat_eq ?_⟩
  have hor : 4096 ||| L = 4096 + L := (Nat.two_pow_add_eq_or_of_lt (i := 12) (by omega) 1).symm
  rw [encode, commandWord_toNat, BitVec.toNat_or, BitVec.toNat_ofNat, BitVec.toNat_ofNat, BitVec.toNat_ofNat,
    BitVec.toNat_ofNat, Nat.mod_eq_of_lt hL, Nat.mod_eq_of_lt (by omega : L < 2 ^ 16)]
  exact hor.symm

/-- Settles O16: the two outcomes by INIT's only check, the words by their encoding, the example by evaluation. -/
theorem initCreatesFreshContext : Obligations.InitCreatesFreshContext := by
  refine ⟨fun L s hL => ?_, fun L s hL herr => ?_, fun L hL => decode_init_word hL, ?_⟩
  · exact ⟨_, exec_init_ok hL s, zeroLanes_lane, outlenOf_toNat hL, rateOf_toNat L, rfl, rfl, rfl, rfl, rfl, rfl, rfl, rfl⟩
  · rw [exec_init_misuse hL, raise_of_not_err _ herr]
    rfl
  · exact ⟨initContext 32 (countCommand State.reset), rfl, rfl, rfl, rfl, rfl⟩

/-! ### ABSORB (41_sponge.md R74) -/

theorem posIndex_lt {s : State} (hpos : s.pos.toNat < s.rate.toNat) (hrate : s.rate.toNat ≤ 200) : posIndex s < 200 :=
  Nat.lt_of_lt_of_le hpos hrate

theorem exec_absorb_initialized {m : Byte} {s : State} (hphase : s.phase = .initialized) (hindex : posIndex s < 200) :
    exec (.absorb m) s = .next (advancePos { s with lanes := xorByteAt s.lanes ⟨posIndex s, hindex⟩ m }) := by
  simp [exec, execAbsorb, absorbMisuse, hphase, absorbByte_ok m hindex]

theorem exec_absorb_inside {m : Byte} {s : State} (hphase : s.phase = .initialized) (hindex : posIndex s < 200)
    (hinside : s.pos.toNat + 1 < s.rate.toNat) :
    exec (.absorb m) s =
      .next { s with lanes := xorByteAt s.lanes ⟨posIndex s, hindex⟩ m, pos := s.pos + 1#8 } := by
  have hsucc := pos_succ_toNat (Nat.lt_of_succ_lt hinside)
  have hne : s.pos + 1#8 ≠ s.rate := fun h => by rw [h] at hsucc; omega
  exact (exec_absorb_initialized hphase hindex).trans
    (congrArg Host.Outcome.next
      (advancePos_inside (s := { s with lanes := xorByteAt s.lanes ⟨posIndex s, hindex⟩ m }) hne))

theorem exec_absorb_filling {m : Byte} {s : State} (hphase : s.phase = .initialized) (hindex : posIndex s < 200)
    (hfilling : s.pos.toNat + 1 = s.rate.toNat) :
    exec (.absorb m) s =
      .next { s with lanes := keccakF (xorByteAt s.lanes ⟨posIndex s, hindex⟩ m), pos := 0#8 } := by
  have heq : s.pos + 1#8 = s.rate :=
    BitVec.eq_of_toNat_eq ((pos_succ_toNat (Nat.lt_of_succ_le hfilling.le)).trans hfilling)
  exact (exec_absorb_initialized hphase hindex).trans
    (congrArg Host.Outcome.next
      (advancePos_boundary (s := { s with lanes := xorByteAt s.lanes ⟨posIndex s, hindex⟩ m }) heq))

theorem byteAt_xorByteAt_index (A : Lanes) {k : Nat} (hk : k < 200) (v : Byte) (b : Fin 200) :
    byteAt (xorByteAt A ⟨k, hk⟩ v) b = if b.val = k then byteAt A b ^^^ v else byteAt A b := by
  simp only [byteAt_xorByteAt, Fin.ext_iff]

theorem State.Inv.pos_lt_rate {s : State} (h : s.Inv) (hphase : s.phase ≠ .uninit) :
    s.pos.toNat < s.rate.toNat ∧ s.rate.toNat ≤ 200 := by
  obtain ⟨-, hrate, hpos⟩ := h.context hphase
  exact ⟨hpos, by omega⟩

/-- Settles O17, by `exec_absorb_inside`. -/
theorem absorbInsideBlock : Obligations.AbsorbInsideBlock := by
  intro m s hinv hphase hinside
  obtain ⟨hpos, hrate⟩ := hinv.pos_lt_rate (by simp [hphase])
  have hindex := posIndex_lt hpos hrate
  exact ⟨_, exec_absorb_inside hphase hindex hinside, byteAt_xorByteAt_index s.lanes hindex m⟩

/-- Settles O18, by `exec_absorb_filling`. -/
theorem absorbFillingBlock : Obligations.AbsorbFillingBlock := by
  intro m s hinv hphase hfilling
  obtain ⟨hpos, hrate⟩ := hinv.pos_lt_rate (by simp [hphase])
  have hindex := posIndex_lt hpos hrate
  exact ⟨_, exec_absorb_filling hphase hindex hfilling, byteAt_xorByteAt_index s.lanes hindex m⟩

/-! ### FINAL and XOF (41_sponge.md R75, R76) -/

/-- The suffix lands on the byte at POS and the end-of-block bit on the byte at RATE − 1, both on one byte where the two meet. -/
theorem pad_xors_bytes (suffix : Byte) {s : State} (hpos : s.pos.toNat < s.rate.toNat) (hrate : s.rate.toNat ≤ 200) :
    ∃ A, pad suffix s = .ok { s with lanes := A } ∧ ∀ b : Fin 200, byteAt A b =
      byteAt s.lanes b ^^^ (if b.val = s.pos.toNat then suffix else 0#8) ^^^
        (if b.val + 1 = s.rate.toNat then endOfBlock else 0#8) := by
  have hlast : lastRateIndex s = s.rate.toNat - 1 := lastRateIndex_eq (Nat.zero_lt_of_lt hpos)
  refine ⟨_, pad_ok suffix s (posIndex_lt hpos hrate) (by omega), fun b => ?_⟩
  have hend : b.val = lastRateIndex s ↔ b.val + 1 = s.rate.toNat := by omega
  simp only [byteAt_xorByteAt_index, hend, posIndex]
  split <;> split <;> simp

theorem finalDigest_of_pad {s : State} {A : Lanes} (hpad : pad finalSuffix s = .ok { s with lanes := A }) :
    finalDigest s = .ok { s with
      lanes := keccakF A, phase := .finalized,
      out := s.out ++ (bytesOfLanes (keccakF A)).toList.take s.outlen.toNat } := by
  have houtlen : 0 + s.outlen.toNat ≤ 200 := by omega
  simp only [finalDigest, hpad, emitBytesFrom_ok _ _ _ houtlen, List.drop_zero]
  rfl

theorem xofFinalize_of_pad {s : State} {A : Lanes} (hpad : pad xofSuffix s = .ok { s with lanes := A }) :
    xofFinalize s = .ok { s with lanes := keccakF A, pos := 0#8, phase := .squeezeReady } := by
  simp only [xofFinalize, hpad]
  rfl

theorem exec_final_of_pad {s : State} {A : Lanes} (hphase : s.phase = .initialized)
    (hpad : pad finalSuffix s = .ok { s with lanes := A }) :
    exec .final s = .next { s with
      lanes := keccakF A, phase := .finalized,
      out := s.out ++ (bytesOfLanes (keccakF A)).toList.take s.outlen.toNat } := by
  simp [exec, execFinal, finalMisuse, hphase, finalDigest_of_pad hpad]

theorem exec_xof_of_pad {s : State} {A : Lanes} (hphase : s.phase = .initialized)
    (hpad : pad xofSuffix s = .ok { s with lanes := A }) :
    exec .xof s = .next { s with lanes := keccakF A, pos := 0#8, phase := .squeezeReady } := by
  simp [exec, execXof, xofMisuse, hphase, xofFinalize_of_pad hpad]

/-- Settles O19: the padding by `pad_xors_bytes`, the rest by `exec_final_of_pad`. -/
theorem finalEmitsDigest : Obligations.FinalEmitsDigest := by
  intro s hinv hphase
  obtain ⟨hpos, hrate⟩ := hinv.pos_lt_rate (by simp [hphase])
  obtain ⟨A, hpad, hbytes⟩ := pad_xors_bytes finalSuffix hpos hrate
  exact ⟨A, exec_final_of_pad hphase hpad, hbytes⟩

/-- Settles O20: the padding by `pad_xors_bytes`, the rest by `exec_xof_of_pad`. -/
theorem xofEntersSqueezeMode : Obligations.XofEntersSqueezeMode := by
  intro s hinv hphase
  obtain ⟨hpos, hrate⟩ := hinv.pos_lt_rate (by simp [hphase])
  obtain ⟨A, hpad, hbytes⟩ := pad_xors_bytes xofSuffix hpos hrate
  exact ⟨A, exec_xof_of_pad hphase hpad, hbytes⟩

/-! ### What no command writes -/

/-- Settles O34, case by case over what a command can have done (`exec_next`). -/
theorem commandsFrame : Obligations.CommandsFrame := by
  intro i s t hexec
  rcases exec_next hexec with ⟨m, rfl⟩ | ⟨L, rfl, -, rfl⟩ | ⟨m, rfl, -, heffect⟩ | ⟨rfl, -, heffect⟩ | ⟨rfl, -, heffect⟩ |
    ⟨n, rfl, -, heffect⟩
  · simp
  · exact ⟨rfl, rfl, rfl, nofun, fun hne => absurd rfl (hne L)⟩
  · obtain ⟨hb, rfl⟩ := absorbByte_inv heffect
    simp
  · obtain ⟨A, bytes, -, rfl⟩ := finalDigest_inv heffect
    exact ⟨rfl, rfl, rfl, fun _ => rfl, fun _ => ⟨rfl, rfl⟩⟩
  · obtain ⟨A, rfl⟩ := xofFinalize_inv heffect
    exact ⟨rfl, rfl, rfl, nofun, fun _ => ⟨rfl, rfl⟩⟩
  · obtain ⟨A, p, bytes, -, rfl⟩ := squeezeBytes_inv heffect
    exact ⟨rfl, rfl, rfl, nofun, fun _ => ⟨rfl, rfl⟩⟩

end Sys2Proof.Machine
end

section
/-! PROOF. SQUEEZE as a stream (41_sponge.md R77, R79): a squeeze emits the bytes of the stream from where the last one
stopped. -/

namespace Sys2Proof.Machine

/-- Settles O22: no byte is asked for, so the loop has no turn. -/
theorem squeezeZeroChangesNothing : Obligations.SqueezeZeroChangesNothing :=
  fun _ hphase => exec_squeeze_ready 0 hphase

/-- Settles O23, by `execAll_squeezes`, of which two counts are a case. -/
theorem squeezesCompose : Obligations.SqueezesCompose :=
  ⟨fun a b _ hphase => execAll_squeezes [a, b] hphase, fun counts _ hphase => execAll_squeezes counts hphase⟩

/-! ### The state at a place in the stream -/

theorem keccakFIter_succ (n : Nat) (A : Lanes) : keccakFIter (n + 1) A = keccakF (keccakFIter n A) := by
  induction n generalizing A with
  | zero => rfl
  | succ n ih => exact ih (keccakF A)

/-- `s` at byte `j` of the output stream that starts at position 0 of the lane file `A` (41_sponge.md R77). -/
def streamState (s : State) (A : Lanes) (j : Nat) : State :=
  { s with
    lanes := keccakFIter (j / s.rate.toNat) A
    pos := BitVec.ofNat 8 (j % s.rate.toNat) }

theorem streamState_pos {s : State} (hrate : 0 < s.rate.toNat) (A : Lanes) (j : Nat) :
    (streamState s A j).pos.toNat = j % s.rate.toNat :=
  (BitVec.toNat_ofNat ..).trans (Nat.mod_eq_of_lt ((Nat.mod_lt j hrate).trans s.rate.isLt))

/-- Every state is at byte POS of the stream of its own lanes. -/
theorem streamState_self {s : State} (hpos : s.pos.toNat < s.rate.toNat) : streamState s s.lanes s.pos.toNat = s := by
  rw [streamState, Nat.div_eq_of_lt hpos, Nat.mod_eq_of_lt hpos, BitVec.ofNat_toNat, BitVec.setWidth_eq]
  rfl

/-- Advancing POS moves to the next byte of the stream: the eager permutation is what starts the next block
(90_conflicts.md C2). -/
theorem advancePos_streamState {s : State} (hrate : 0 < s.rate.toNat) (A : Lanes) (j : Nat) :
    advancePos (streamState s A j) = streamState s A (j + 1) := by
  have hpos := streamState_pos hrate A j
  have hsplit := Nat.mod_add_div j s.rate.toNat
  have hlt : (streamState s A j).pos.toNat < s.rate.toNat := hpos ▸ Nat.mod_lt j hrate
  have hsucc : ((streamState s A j).pos + 1#8).toNat = j % s.rate.toNat + 1 :=
    (pos_succ_toNat (s := streamState s A j) hlt).trans (by rw [hpos])
  by_cases hblock : j % s.rate.toNat + 1 = s.rate.toNat
  · have hboundary : (streamState s A j).pos + 1#8 = s.rate := BitVec.eq_of_toNat_eq (hsucc.trans hblock)
    obtain ⟨hdiv, hmod⟩ : (j + 1) / s.rate.toNat = j / s.rate.toNat + 1 ∧ (j + 1) % s.rate.toNat = 0 :=
      (Nat.div_mod_unique hrate).mpr ⟨by rw [Nat.mul_add]; omega, hrate⟩
    rw [advancePos_boundary (s := streamState s A j) hboundary, streamState, streamState, hdiv, hmod, keccakFIter_succ]
    rfl
  · have hinside : (streamState s A j).pos + 1#8 ≠ s.rate := fun h => hblock (by rw [← hsucc, h])
    obtain ⟨hdiv, hmod⟩ : (j + 1) / s.rate.toNat = j / s.rate.toNat ∧ (j + 1) % s.rate.toNat = j % s.rate.toNat + 1 :=
      (Nat.div_mod_unique hrate).mpr ⟨by omega, by omega⟩
    rw [advancePos_inside (s := streamState s A j) hinside, streamState, streamState, hdiv, hmod, BitVec.ofNat_add]
    rfl

theorem squeezeByte_streamState {s : State} (hrate : 0 < s.rate.toNat) (hrate' : s.rate.toNat ≤ 200) (A : Lanes) (j : Nat) :
    ∃ b, streamByte s.rate.toNat A j = some b ∧
      squeezeByte (streamState s A j) = .ok (streamState (emit s b) A (j + 1)) := by
  have hlt : j % s.rate.toNat < 200 := (Nat.mod_lt j hrate).trans_le hrate'
  have hindex : posIndex (streamState s A j) < 200 := by rwa [posIndex, streamState_pos hrate]
  refine ⟨byteAt (keccakFIter (j / s.rate.toNat) A) ⟨j % s.rate.toNat, hlt⟩, ?_, ?_⟩
  · simp [streamByte, hlt]
  · rw [squeezeByte_ok hindex, ← advancePos_streamState (s := emit s _) hrate]
    simp only [posIndex, streamState_pos hrate]
    rfl

/-- A squeeze of `n` bytes appends the next `n` bytes of the stream and stops where the stream goes on. -/
theorem squeezeBytes_streamState (n : Nat) {s : State} (hrate : 0 < s.rate.toNat) (hrate' : s.rate.toNat ≤ 200) (A : Lanes)
    (j : Nat) :
    ∃ bytes : List Byte, bytes.length = n ∧ (∀ k, k < n → bytes[k]? = streamByte s.rate.toNat A (j + k)) ∧
      squeezeBytes n (streamState s A j) = .ok (streamState { s with out := s.out ++ bytes } A (j + n)) := by
  induction n generalizing s j with
  | zero => exact ⟨[], rfl, nofun, by simp [squeezeBytes_zero]⟩
  | succ n ih =>
    obtain ⟨b, hb, hfirst⟩ := squeezeByte_streamState hrate hrate' A j
    obtain ⟨bytes, hlength, hbytes, hrest⟩ := ih (s := emit s b) hrate hrate' (j + 1)
    refine ⟨b :: bytes, congrArg Nat.succ hlength, fun k hk => ?_, ?_⟩
    · cases k with
      | zero => exact hb.symm
      | succ k => exact (hbytes k (Nat.lt_of_succ_lt_succ hk)).trans (by rw [emit_rate, Nat.succ_add_eq_add_succ])
    · rw [squeezeBytes_succ, hfirst]
      refine hrest.trans ?_
      simp [emit, Nat.add_assoc, Nat.add_comm 1 n]

/-- Settles O21: the state is at byte POS of its own stream (`streamState_self`), and the loop walks along the stream
(`squeezeBytes_streamState`). -/
theorem squeezeEmitsStream : Obligations.SqueezeEmitsStream := by
  intro n s hinv hphase
  obtain ⟨hpos, hrate⟩ := hinv.pos_lt_rate (by simp [hphase])
  obtain ⟨bytes, hlength, hbytes, hsqueeze⟩ :=
    squeezeBytes_streamState n (Nat.zero_lt_of_lt hpos) hrate s.lanes s.pos.toNat
  rw [streamState_self hpos] at hsqueeze
  refine ⟨bytes, hlength, hbytes, ?_⟩
  rw [exec_squeeze_ready n hphase, hsqueeze]
  rfl

end Sys2Proof.Machine
end

section
/-! PROOF. Whole messages (41_sponge.md R74 to R80): absorbing byte by byte, with a position register, is absorbing the padded
message block by block. -/

namespace Sys2Proof.Machine

/-! ### Commands in a row -/

theorem execAll_cons {i : Instr} {s t : State} (h : exec i s = .next t) (is : List Instr) :
    execAll (i :: is) s = execAll is t := by
  rw [execAll, h]

theorem exec_of_execAll_cons {i : Instr} {is : List Instr} {s t : State} (h : execAll (i :: is) s = .next t) :
    ∃ u, exec i s = .next u ∧ execAll is u = .next t := by
  cases hfirst : exec i s with
  | next u => exact ⟨u, rfl, by rwa [execAll_cons hfirst] at h⟩
  | fault f => simp [execAll, hfirst] at h
  | refused r => simp [execAll, hfirst] at h

theorem execAll_append {is : List Instr} {s t : State} (h : execAll is s = .next t) (js : List Instr) :
    execAll (is ++ js) s = execAll js t := by
  induction is generalizing s with
  | nil =>
    cases h
    rfl
  | cons i is ih =>
    obtain ⟨u, hfirst, hrest⟩ := exec_of_execAll_cons h
    exact (execAll_cons hfirst _).trans (ih hrest)

theorem expand_absorbs_append (x y : List Byte) :
    expand (.absorbs (x ++ y)) = expand (.absorbs x) ++ expand (.absorbs y) :=
  List.map_append

/-- Settles O25: the commands for x ‖ y are those for x and then those for y. -/
theorem absorbingStreams : Obligations.AbsorbingStreams := by
  intro x y s t h
  rw [expand_absorbs_append]
  exact execAll_append h _

/-! ### A partly filled block -/

theorem byteAt_xorBlock (A : Lanes) (block : List Byte) (b : Fin 200) :
    byteAt (xorBlock A block) b = byteAt A b ^^^ block.getD b.val 0#8 := by
  rw [xorBlock, byteAt_lanesOfBytes]
  simp

theorem xorBlock_nil (A : Lanes) : xorBlock A [] = A :=
  lanes_ext_byteAt fun b => by simp [byteAt_xorBlock]

/-- One more byte of a block, XORed in behind those before it. -/
theorem xorBlock_append_singleton (A : Lanes) (part : List Byte) (m : Byte) (h : part.length < 200) :
    xorBlock A (part ++ [m]) = xorByteAt (xorBlock A part) ⟨part.length, h⟩ m := by
  refine lanes_ext_byteAt fun b => ?_
  rw [byteAt_xorByteAt_index, byteAt_xorBlock, byteAt_xorBlock]
  rcases Nat.lt_trichotomy b.val part.length with hlt | heq | hgt
  · simp [hlt, hlt.ne, List.getElem?_append_left hlt]
  · simp [heq]
  · have hbeyond : (part ++ [m]).length ≤ b.val := by simpa using hgt
    simp [hgt.ne', List.getElem?_eq_none hgt.le, List.getElem?_eq_none hbeyond]

/-- `s` in the middle of a block: the lanes were `A` when the block began, and `part` is what has been absorbed of it. -/
def blockState (s : State) (A : Lanes) (part : List Byte) : State :=
  { s with lanes := xorBlock A part, pos := BitVec.ofNat 8 part.length }

theorem blockState_nil (s : State) (A : Lanes) : blockState s A [] = { s with lanes := A, pos := 0#8 } := by
  rw [blockState, xorBlock_nil]
  rfl

section
variable {s : State} (hphase : s.phase = .initialized) (hrate : s.rate.toNat ≤ 200)

theorem blockState_pos {part : List Byte} (hpart : part.length < s.rate.toNat) (A : Lanes) :
    (blockState s A part).pos.toNat = part.length :=
  (BitVec.toNat_ofNat ..).trans (Nat.mod_eq_of_lt (hpart.trans s.rate.isLt))

include hrate in
theorem blockState_posIndex_lt {part : List Byte} (hpart : part.length < s.rate.toNat) (A : Lanes) :
    posIndex (blockState s A part) < 200 := by
  rw [posIndex, blockState_pos hpart]
  omega

include hrate in
theorem xorByteAt_blockState {part : List Byte} (hpart : part.length < s.rate.toNat) (A : Lanes) (m : Byte) :
    xorByteAt (blockState s A part).lanes ⟨_, blockState_posIndex_lt hrate hpart A⟩ m = xorBlock A (part ++ [m]) := by
  rw [xorBlock_append_singleton A part m (by omega)]
  simp only [posIndex, blockState_pos hpart]
  rfl

include hphase hrate

theorem exec_absorb_blockState_inside {part : List Byte} {m : Byte} (hinside : part.length + 1 < s.rate.toNat) (A : Lanes) :
    exec (.absorb m) (blockState s A part) = .next (blockState s A (part ++ [m])) := by
  have hpart := Nat.lt_of_succ_lt hinside
  rw [exec_absorb_inside (s := blockState s A part) hphase (blockState_posIndex_lt hrate hpart A)
    (by rwa [blockState_pos hpart]), xorByteAt_blockState hrate hpart, blockState, blockState, List.length_append,
    BitVec.ofNat_add]
  rfl

theorem exec_absorb_blockState_filling {part : List Byte} {m : Byte} (hfilling : part.length + 1 = s.rate.toNat) (A : Lanes) :
    exec (.absorb m) (blockState s A part) = .next (blockState s (keccakF (xorBlock A (part ++ [m]))) []) := by
  have hpart := Nat.lt_of_succ_le hfilling.le
  rw [exec_absorb_filling (s := blockState s A part) hphase (blockState_posIndex_lt hrate hpart A)
    (by rwa [blockState_pos hpart]), xorByteAt_blockState hrate hpart, blockState_nil]
  rfl

theorem execAll_absorbs_inside (x : List Byte) {part : List Byte} (hinside : part.length + x.length < s.rate.toNat)
    (A : Lanes) : execAll (expand (.absorbs x)) (blockState s A part) = .next (blockState s A (part ++ x)) := by
  induction x generalizing part with
  | nil => rw [List.append_nil]; rfl
  | cons m x ih =>
    rw [List.length_cons] at hinside
    refine (execAll_cons (exec_absorb_blockState_inside hphase hrate (by omega) A) _).trans ?_
    rw [List.append_cons part m x]
    exact ih (by simp; omega)

/-- A whole block is XORed in and permuted once, by its last byte's command (41_sponge.md R80). -/
theorem execAll_absorbs_block {block : List Byte} (hblock : block.length = s.rate.toNat) (hpos : 0 < s.rate.toNat)
    (A : Lanes) : execAll (expand (.absorbs block)) (blockState s A []) =
      .next (blockState s (keccakF (xorBlock A block)) []) := by
  obtain ⟨part, last, rfl⟩ : ∃ part last, block = part ++ [last] :=
    ⟨_, _, (List.dropLast_concat_getLast (List.ne_nil_of_length_pos (hblock ▸ hpos))).symm⟩
  rw [List.length_append, List.length_singleton] at hblock
  rw [expand_absorbs_append, execAll_append (execAll_absorbs_inside hphase hrate part (part := []) (by simp; omega) A)]
  exact execAll_cons (exec_absorb_blockState_filling hphase hrate hblock A) []

end

/-- Settles O26, by `execAll_absorbs_block` for the block and `exec_absorb_blockState_inside` for the byte after it. -/
theorem blockBoundaries : Obligations.BlockBoundaries := by
  intro block last s hinv hphase hpos hblock
  obtain ⟨hout, hrate, -⟩ := hinv.context (by simp [hphase])
  have hrate' : s.rate.toNat ≤ 200 := by omega
  have hstart : blockState s s.lanes [] = s := by rw [blockState_nil, ← hpos]
  have hwhole := execAll_absorbs_block hphase hrate' hblock (by omega) s.lanes
  have hnext := exec_absorb_blockState_inside hphase hrate' (part := []) (m := last) (by simp; omega)
    (keccakF (xorBlock s.lanes block))
  rw [hstart] at hwhole
  refine ⟨xorBlock s.lanes block, xorBlock (keccakF (xorBlock s.lanes block)) [last], byteAt_xorBlock s.lanes block, ?_,
    fun b => ?_, ?_⟩
  · rw [hwhole, blockState_nil]
  · rw [byteAt_xorBlock]
    by_cases hb : b.val = 0
    · simp [hb]
    · simp [hb]
  · rw [expand_absorbs_append, execAll_append hwhole]
    exact execAll_cons hnext []

/-! ### The padding of the last block -/

theorem paddedMessage_length {rate : Nat} {part : List Byte} (hpart : part.length < rate) (suffix : Byte) :
    (paddedMessage rate suffix part).length = rate := by
  simp only [paddedMessage, Nat.mod_eq_of_lt hpart]
  split
  · simpa
  · simp
    omega

/-- The padding of a last block as XORs: the suffix behind its bytes, the end-of-block bit on the rate's last byte. -/
theorem getD_paddedMessage {rate : Nat} {part : List Byte} (hpart : part.length < rate) (suffix : Byte) (b : Nat) :
    (paddedMessage rate suffix part).getD b 0#8 =
      part.getD b 0#8 ^^^ (if b = part.length then suffix else 0#8) ^^^ (if b + 1 = rate then endOfBlock else 0#8) := by
  simp only [paddedMessage, Nat.mod_eq_of_lt hpart, endOfBlock]
  rcases Nat.lt_trichotomy b part.length with hbefore | hsuffix | hbehind
  · grind
  · grind
  · grind

/-- The commands' padding of a partly filled block is the reference's. -/
theorem pad_blockState {s : State} {part : List Byte} (hpart : part.length < s.rate.toNat) (hrate : s.rate.toNat ≤ 200)
    (suffix : Byte) (A : Lanes) :
    pad suffix (blockState s A part) =
      .ok { blockState s A part with lanes := xorBlock A (paddedMessage s.rate.toNat suffix part) } := by
  have hpos := blockState_pos hpart A
  obtain ⟨B, hpad, hbytes⟩ := pad_xors_bytes suffix (s := blockState s A part) (hpos ▸ hpart) hrate
  have hB : B = xorBlock A (paddedMessage s.rate.toNat suffix part) := lanes_ext_byteAt fun b => by
    rw [hbytes, byteAt_xorBlock, getD_paddedMessage hpart, hpos]
    simp only [blockState, byteAt_xorBlock, BitVec.xor_assoc]
    rfl
  rw [hpad, hB]

/-! ### Block by block -/

/-- The lane file after the whole padded message, absorbed from `A`: `spongeLanes` from any lane file. -/
def spongeFrom (rate : Nat) (suffix : Byte) (A : Lanes) (message : List Byte) : Lanes :=
  absorbBlocks rate ((paddedMessage rate suffix message).length / rate) A (paddedMessage rate suffix message)

theorem spongeFrom_zeroLanes (rate : Nat) (suffix : Byte) (message : List Byte) :
    spongeFrom rate suffix zeroLanes message = spongeLanes rate suffix message := rfl

theorem paddedMessage_block_append {rate : Nat} {block : List Byte} (hblock : block.length = rate) (suffix : Byte)
    (message : List Byte) :
    paddedMessage rate suffix (block ++ message) = block ++ paddedMessage rate suffix message := by
  simp only [paddedMessage, List.length_append, hblock, Nat.add_mod_left, List.append_assoc]
  split <;> rfl

theorem spongeFrom_block_append {rate : Nat} {block : List Byte} (hblock : block.length = rate) (hrate : 0 < rate)
    (suffix : Byte) (A : Lanes) (message : List Byte) :
    spongeFrom rate suffix A (block ++ message) = spongeFrom rate suffix (keccakF (xorBlock A block)) message := by
  rw [spongeFrom, paddedMessage_block_append hblock, List.length_append, hblock, Nat.add_div_left _ hrate, absorbBlocks,
    List.take_left' hblock, List.drop_left' hblock]
  rfl

theorem spongeFrom_lastBlock {rate : Nat} {part : List Byte} (hpart : part.length < rate) (suffix : Byte) (A : Lanes) :
    spongeFrom rate suffix A part = keccakF (xorBlock A (paddedMessage rate suffix part)) := by
  have hlength := paddedMessage_length hpart suffix
  rw [spongeFrom, hlength, Nat.div_self (Nat.zero_lt_of_lt hpart), absorbBlocks, List.take_of_length_le hlength.le]
  rfl

/-- Absorbing a message byte by byte leaves a last, partly filled block from which the reference goes on to the same lanes. -/
theorem execAll_absorbs {s : State} (hphase : s.phase = .initialized) (hrate : s.rate.toNat ≤ 200)
    (hpos : 0 < s.rate.toNat) (message : List Byte) (A : Lanes) :
    ∃ B part, part.length < s.rate.toNat ∧
      execAll (expand (.absorbs message)) (blockState s A []) = .next (blockState s B part) ∧
      ∀ suffix, spongeFrom s.rate.toNat suffix A message = spongeFrom s.rate.toNat suffix B part := by
  by_cases hshort : message.length < s.rate.toNat
  · exact ⟨A, message, hshort, execAll_absorbs_inside hphase hrate message (by simpa using hshort) A, fun _ => rfl⟩
  · have hblock : (message.take s.rate.toNat).length = s.rate.toNat := List.length_take_of_le (Nat.not_lt.mp hshort)
    obtain ⟨B, part, hpart, hrest, hsponge⟩ :=
      execAll_absorbs hphase hrate hpos (message.drop s.rate.toNat) (keccakF (xorBlock A (message.take s.rate.toNat)))
    refine ⟨B, part, hpart, ?_, fun suffix => ?_⟩
    · rw [← List.take_append_drop s.rate.toNat message, expand_absorbs_append,
        execAll_append (execAll_absorbs_block hphase hrate hblock hpos A), hrest]
    · rw [← hsponge, ← spongeFrom_block_append hblock hpos, List.take_append_drop]
termination_by message.length
decreasing_by
  rw [List.length_drop]
  omega

/-- INIT and a message leave a last, partly filled block, and the padding of FINAL and XOF makes of it the lanes that the
block-wise sponge permutes last. -/
theorem execAll_init_absorbs {L : Nat} (hL : L < 100) (message : List Byte) (s : State) :
    ∃ t, execAll (.init L :: expand (.absorbs message)) s = .next t ∧ t.phase = .initialized ∧ t.outlen = outlenOf L ∧
      t.out = s.out ∧ t.err = s.err ∧ t.errcode = s.errcode ∧
      ∀ suffix, ∃ A, pad suffix t = .ok { t with lanes := A } ∧
        keccakF A = spongeLanes (200 - 2 * L) suffix message := by
  have hrate : (initContext L s).rate.toNat = 200 - 2 * L := rateOf_toNat L
  have hstart : initContext L s = blockState (initContext L s) zeroLanes [] := by rw [blockState_nil]; rfl
  obtain ⟨B, part, hpart, hrun, hsponge⟩ :=
    execAll_absorbs (s := initContext L s) rfl (by omega) (by omega) message zeroLanes
  rw [← hstart] at hrun
  refine ⟨_, (execAll_cons (exec_init_ok hL s) _).trans hrun, rfl, rfl, rfl, rfl, rfl, fun suffix => ?_⟩
  refine ⟨_, pad_blockState hpart (by omega) suffix B, ?_⟩
  rw [← spongeFrom_lastBlock hpart, ← hsponge, spongeFrom_zeroLanes, hrate]

/-- Settles O27: the message by `execAll_init_absorbs`, and FINAL and XOF permute the lanes they padded. -/
theorem hashIsBlockwiseSponge : Obligations.HashIsBlockwiseSponge := by
  intro L message s hL
  obtain ⟨t, hrun, hphase, houtlen, hout, herr, hcode, hpadded⟩ := execAll_init_absorbs hL message s
  constructor
  · obtain ⟨A, hpad, hlanes⟩ := hpadded finalSuffix
    have hfinal := exec_final_of_pad hphase hpad
    refine ⟨_, (execAll_append hrun [.final]).trans (execAll_cons hfinal []), rfl, ?_, herr, hcode⟩
    rw [spongeDigest, hlanes, hout, houtlen, outlenOf_toNat hL]
    rfl
  · obtain ⟨A, hpad, hlanes⟩ := hpadded xofSuffix
    have hxof := exec_xof_of_pad hphase hpad
    exact ⟨_, (execAll_append hrun [.xof]).trans (execAll_cons hxof []), rfl, rfl, hout, hlanes⟩

end Sys2Proof.Machine
end

section
/-! PROOF. Command words presented by the host (41_sponge.md R72, R83): a clean run of commands is, one step per word, the run
of their encodings. -/

namespace Sys2Proof.Machine

/-! ### No command reads the host's side -/

/-- The same core with `inputs` still to be presented and `index` as the index of the next command (10_state.md R16). -/
def withHost (inputs : List HostInput) (index : Nat) (s : State) : State := { s with inputs := inputs, index := index }

section
variable (inputs : List HostInput) (index : Nat)

theorem raise_withHost (m : Misuse) (s : State) :
    raise m (withHost inputs index s) = withHost inputs index (raise m s) := by
  cases herr : s.err with
  | true => rw [raise_of_err m herr, raise_of_err m (s := withHost inputs index s) herr]
  | false =>
    rw [raise_of_not_err m herr, raise_of_not_err m (s := withHost inputs index s) herr]
    rfl

theorem advancePos_withHost (s : State) :
    advancePos (withHost inputs index s) = withHost inputs index (advancePos s) := by
  by_cases hboundary : s.pos + 1#8 = s.rate
  · rw [advancePos_boundary hboundary, advancePos_boundary (s := withHost inputs index s) hboundary]
    rfl
  · rw [advancePos_inside hboundary, advancePos_inside (s := withHost inputs index s) hboundary]
    rfl

theorem checked_withHost {misuse : Option Misuse} {s t : State} {e e' : Except Fault State}
    (h : checked misuse s e = .next t) (heffect : e = .ok t → e' = .ok (withHost inputs index t)) :
    checked misuse (withHost inputs index s) e' = .next (withHost inputs index t) := by
  rcases checked_next h with ⟨m, rfl, rfl⟩ | ⟨rfl, he⟩
  · rw [checked_some, raise_withHost]
  · rw [heffect he, checked_none, outcomeOf_ok]

theorem absorbByte_withHost {m : Byte} {s t : State} (h : absorbByte m s = .ok t) :
    absorbByte m (withHost inputs index s) = .ok (withHost inputs index t) := by
  obtain ⟨hindex, rfl⟩ := absorbByte_inv h
  rw [absorbByte_ok (s := withHost inputs index s) m hindex, ← advancePos_withHost]
  rfl

theorem pad_withHost {suffix : Byte} {s t : State} (h : pad suffix s = .ok t) :
    pad suffix (withHost inputs index s) = .ok (withHost inputs index t) := by
  unfold pad at h
  split at h
  · next u hu =>
    obtain ⟨hfirst, rfl⟩ := xorByte_inv hu
    obtain ⟨hlast, rfl⟩ := xorByte_inv h
    exact pad_ok suffix (withHost inputs index s) hfirst hlast
  · cases h

theorem finalDigest_withHost {s t : State} (h : finalDigest s = .ok t) :
    finalDigest (withHost inputs index s) = .ok (withHost inputs index t) := by
  cases hpad : pad finalSuffix s with
  | error f => simp [finalDigest, hpad] at h
  | ok u =>
    obtain ⟨A, rfl⟩ := pad_inv hpad
    cases (finalDigest_of_pad hpad).symm.trans h
    exact finalDigest_of_pad (pad_withHost inputs index hpad)

theorem xofFinalize_withHost {s t : State} (h : xofFinalize s = .ok t) :
    xofFinalize (withHost inputs index s) = .ok (withHost inputs index t) := by
  cases hpad : pad xofSuffix s with
  | error f => simp [xofFinalize, hpad] at h
  | ok u =>
    obtain ⟨A, rfl⟩ := pad_inv hpad
    cases (xofFinalize_of_pad hpad).symm.trans h
    exact xofFinalize_of_pad (pad_withHost inputs index hpad)

theorem squeezeByte_withHost {s t : State} (h : squeezeByte s = .ok t) :
    squeezeByte (withHost inputs index s) = .ok (withHost inputs index t) := by
  obtain ⟨hindex, rfl⟩ := squeezeByte_inv h
  rw [squeezeByte_ok (s := withHost inputs index s) hindex, ← advancePos_withHost]
  rfl

theorem squeezeBytes_withHost {n : Nat} {s t : State} (h : squeezeBytes n s = .ok t) :
    squeezeBytes n (withHost inputs index s) = .ok (withHost inputs index t) := by
  induction n generalizing s with
  | zero =>
    cases h
    rfl
  | succ n ih =>
    cases hfirst : squeezeByte s with
    | error f => simp [squeezeBytes_succ, hfirst] at h
    | ok u =>
      rw [squeezeBytes_succ, hfirst] at h
      rw [squeezeBytes_succ, squeezeByte_withHost inputs index hfirst]
      exact ih h

end

/-- Each command does the same whatever the host has still to present. -/
theorem exec_withHost {i : Instr} {s t : State} (h : exec i s = .next t) (inputs : List HostInput) (index : Nat) :
    exec i (withHost inputs index s) = .next (withHost inputs index t) := by
  cases i with
  | init L => exact checked_withHost inputs index h fun he => by cases he; rfl
  | absorb m => exact checked_withHost inputs index h (absorbByte_withHost inputs index)
  | final => exact checked_withHost inputs index h (finalDigest_withHost inputs index)
  | xof => exact checked_withHost inputs index h (xofFinalize_withHost inputs index)
  | squeeze n => exact checked_withHost inputs index h (squeezeBytes_withHost inputs index)

/-! ### Runs of words -/

/-- The host presents the encodings of some commands. -/
def presentedWords (is : List Instr) : List HostInput := is.map fun i => .command (encode i)

theorem step_presented {i : Instr} {s t : State} (hwf : i.wellFormed = true) (hclean : s.Clean) (h : exec i s = .next t)
    (is : List Instr) (index : Nat) :
    step (withHost (presentedWords (i :: is)) index s) = .next (withHost (presentedWords is) (index + 1) t) := by
  rw [stepRunsDecodedCommand (withHost (presentedWords (i :: is)) index s) (encode i) (presentedWords is) i rfl hclean
    (decodeOfEncode i hwf)]
  exact exec_withHost h (presentedWords is) (index + 1)

/-- ERR is sticky, so a run of commands that ends clean began clean (10_state.md R21). -/
theorem execAll_clean {is : List Instr} {s t : State} (h : execAll is s = .next t) (hclean : t.Clean) : s.Clean := by
  induction is generalizing s with
  | nil =>
    cases h
    exact hclean
  | cons i is ih =>
    obtain ⟨u, hfirst, hrest⟩ := exec_of_execAll_cons h
    have hu : u.err = false := ih hrest
    by_contra herr
    obtain ⟨hkept, -⟩ := exec_keeps_err hfirst (Bool.eq_true_of_not_eq_false herr)
    simp [hu] at hkept

/-- A clean run of encodable commands is the run of their words, one step each. -/
theorem run_presented {is : List Instr} {s t : State} (hencodable : Encodable is) (h : execAll is s = .next t)
    (hclean : t.Clean) (index : Nat) :
    Host.Core.run Sys2Proof.core is.length (withHost (presentedWords is) index s) =
      .next (withHost [] (index + is.length) t) := by
  induction is generalizing s index with
  | nil =>
    cases h
    rfl
  | cons i is ih =>
    obtain ⟨hwf, hencodable⟩ := List.forall_mem_cons.mp hencodable
    obtain ⟨u, hfirst, hrest⟩ := exec_of_execAll_cons h
    rw [List.length_cons, run_succ_of_step (step_presented hwf (execAll_clean h hclean) hfirst is index),
      ih hencodable hrest, Nat.add_right_comm]
    rfl

/-- Settles O28: the commands' own run is clean and ends with the digest (`hashIsBlockwiseSponge`), and the words' run is that
run (`run_presented`). -/
theorem hashRunEndsClean : Obligations.HashRunEndsClean := by
  intro L message hL
  obtain ⟨⟨t, hrun, hphase, hout, herr, -⟩, -⟩ := hashIsBlockwiseSponge L message State.reset hL
  have hencodable : Encodable (expand (.hash L message)) := encodable_hash (decide_eq_true (by omega)) message
  have hlength : (expand (.hash L message)).length = message.length + 2 := by simp [expand]
  have hwords := run_presented hencodable hrun herr 0
  rw [hlength, Nat.zero_add] at hwords
  exact ⟨_, hwords, rfl, rfl, herr, hphase, hout⟩

end Sys2Proof.Machine
end

section
/-! PROOF. Misuse (60_exceptions.md): the phase and operand checks are the legality table (R89, R90), a fault is precise (R91),
and a locked core discards every word (R92). -/

namespace Sys2Proof.Machine

/-! ### A command is its check and its effect -/

/-- The misuse a command's own check finds in a phase (41_sponge.md R73 to R77). -/
def misuseOf (p : Phase) : Instr → Option Misuse
  | .init L => initMisuse L
  | .absorb _ => absorbMisuse p
  | .final => finalMisuse p
  | .xof => xofMisuse p
  | .squeeze _ => squeezeMisuse p

/-- A command's effect past its check (41_sponge.md R73 to R77). -/
def effectOf (s : State) : Instr → Except Fault State
  | .init L => .ok (initContext L s)
  | .absorb m => absorbByte m s
  | .final => finalDigest s
  | .xof => xofFinalize s
  | .squeeze n => squeezeBytes n s

theorem exec_eq_checked (i : Instr) (s : State) : exec i s = checked (misuseOf s.phase i) s (effectOf s i) := by
  cases i <;> rfl

theorem exec_of_misuse {i : Instr} {m : Misuse} {s : State} (h : misuseOf s.phase i = some m) :
    exec i s = .next (raise m s) := by
  rw [exec_eq_checked, h, checked_some]

theorem effectOf_keeps_err {i : Instr} {s t : State} (h : effectOf s i = .ok t) : t.err = s.err := by
  cases i with
  | init L =>
    cases h
    rfl
  | absorb m =>
    obtain ⟨hindex, rfl⟩ := absorbByte_inv h
    exact advancePos_err _
  | final =>
    obtain ⟨A, bytes, -, rfl⟩ := finalDigest_inv h
    rfl
  | xof =>
    obtain ⟨A, rfl⟩ := xofFinalize_inv h
    rfl
  | squeeze n =>
    obtain ⟨A, p, bytes, -, rfl⟩ := squeezeBytes_inv h
    rfl

theorem exec_keeps_err_of_no_misuse {i : Instr} {s t : State} (hcheck : misuseOf s.phase i = none)
    (h : exec i s = .next t) : t.err = s.err := by
  rw [exec_eq_checked, hcheck, checked_none] at h
  exact effectOf_keeps_err (outcomeOf_next h)

/-! ### The legality table (60_exceptions.md R89) -/

theorem initMisuse_code (L : Nat) : (initMisuse L).map misuseCode = if 100 ≤ L then some 0x6#4 else none := by
  unfold initMisuse
  split <;> rfl

/-- The table gives a command the code of the misuse its check finds. -/
theorem legalityTable_eq (p : Phase) (i : Instr) : legalityTable p i = (misuseOf p i).map misuseCode := by
  cases i with
  | init L =>
    rw [misuseOf, initMisuse_code]
    cases p <;> rfl
  | absorb m => cases p <;> rfl
  | final => cases p <;> rfl
  | xof => cases p <;> rfl
  | squeeze n => cases p <;> rfl

theorem legalityTable_eq_none {p : Phase} {i : Instr} : legalityTable p i = none ↔ misuseOf p i = none := by
  rw [legalityTable_eq, Option.map_eq_none_iff]

theorem legalityTable_eq_some {p : Phase} {i : Instr} {c : BitVec 4} :
    legalityTable p i = some c ↔ ∃ m, misuseOf p i = some m ∧ misuseCode m = c := by
  rw [legalityTable_eq, Option.map_eq_some_iff]

/-! ### The fault entry (60_exceptions.md R91) -/

/-- A word that faults changes ERR, ERRCODE and the host's index. -/
theorem raise_countCommand (m : Misuse) {s : State} (h : s.err = false) :
    raise m (countCommand s) = { s with err := true, errcode := misuseCode m, index := s.index + 1 } :=
  raise_of_not_err m (s := countCommand s) h

/-- Settles O29: a command's check is the table (`legalityTable_eq`); where it finds no misuse the effect answers
(`exec_answers`) and keeps ERR. -/
theorem legalityTableHolds : Obligations.LegalityTableHolds := by
  refine ⟨fun w s herr hillegal => ?_, fun w i c s herr hdecode htable => ?_, fun w i s hinv herr hdecode htable => ?_,
    fun w s herr => accept_locked w herr⟩
  · cases hdecode : decode w with
    | ok i => exact absurd hdecode (hillegal i)
    | error e =>
      rw [accept_illegal herr hdecode, raise_countCommand _ herr]
      rfl
  · obtain ⟨m, hmisuse, rfl⟩ := legalityTable_eq_some.mp htable
    rw [accept_decoded herr hdecode, exec_of_misuse (s := countCommand s) hmisuse, raise_countCommand m herr]
  · rw [accept_decoded herr hdecode]
    obtain ⟨t, hexec⟩ := exec_answers i (s := countCommand s) hinv
    have hkept : t.err = s.err :=
      exec_keeps_err_of_no_misuse (s := countCommand s) (legalityTable_eq_none.mp htable) hexec
    exact ⟨rfl, t, hexec, hkept.trans herr⟩

/-- A word that sets ERR took the fault entry. -/
theorem accept_sets_err {w : CommandWord} {s t : State} (h : accept w s = .next t) (hclean : s.err = false)
    (hfault : t.err = true) : ∃ m, t = raise m (countCommand s) := by
  rcases accept_next h with ⟨hlocked, -⟩ | ⟨-, -, ht⟩ | ⟨-, i, -, hexec⟩
  · simp [hclean] at hlocked
  · exact ⟨.badCommand, ht⟩
  · rcases exec_raises_or_emits hexec with hraise | ⟨hkept, -⟩
    · exact hraise
    · simp [hkept, hclean] at hfault

/-- Settles O30: the only way to set ERR is the fault entry (`accept_sets_err`), which writes a misuse's code. -/
theorem faultEntryChangesOnlyErr : Obligations.FaultEntryChangesOnlyErr := by
  refine ⟨fun w s t haccept hclean hfault => ?_, fun m s => raise_of_not_err m, fun m s => raise_of_err m⟩
  obtain ⟨m, rfl⟩ := accept_sets_err haccept hclean hfault
  rw [raise_countCommand m hclean]
  exact ⟨rfl, misuseCode_range m⟩

/-! ### The locked core (60_exceptions.md R92) and the idle one (R100) -/

theorem acceptAll_locked (ws : List CommandWord) {s : State} (h : s.err = true) :
    acceptAll ws s = .next { s with index := s.index + ws.length } := by
  induction ws generalizing s with
  | nil => rfl
  | cons w ws ih =>
    have hrest := ih (s := countCommand s) h
    rw [acceptAll, accept_locked w h]
    rw [countCommand_index, Nat.add_assoc, Nat.add_comm 1] at hrest
    exact hrest

theorem tick_locked {p : InputPins} {s : PortState} (hlocked : s.regs.err = true) (hidle : s.job = none)
    (hrst : p.rst = false) (hsame : changesOffered p s = false) (hvalid : p.cmdValid = true) :
    tick p s = .next ⟨countCommand s.regs, none, none⟩ := by
  simp [tick, startJob, hlocked, hidle, hrst, hsame, hvalid]

/-- Settles O8: the words by induction (`acceptAll_locked`), the pins by `tick_locked`, and ERR is sticky until a reset
(`errStickyUntilReset`), which clears it. -/
theorem lockedCoreDiscardsWords : Obligations.LockedCoreDiscardsWords := by
  refine ⟨fun ws s => acceptAll_locked ws, fun p s _ hbusy hrst => ?_, fun p s => tick_locked,
    fun s t hstep hlocked hclean => ?_, fun s rest hinputs => ?_⟩
  · simp [portOutputs, hbusy, hrst]
  · obtain ⟨hsticky, -⟩ := errStickyUntilReset
    rcases hsticky s t hstep hlocked with ⟨hkept, -⟩ | hreset
    · simp [hclean] at hkept
    · exact hreset
  · exact ⟨_, step_of_input hinputs, rfl⟩

/-- Settles O9, by `step_of_idle`. -/
theorem idleHoldsState : Obligations.IdleHoldsState := fun _ hidle => step_of_idle hidle

end Sys2Proof.Machine
end

section
/-! PROOF. Reset and hazards at the pins: a command in flight keeps the core to itself, STATUS shows it only when it completes,
and a reset abandons it (70_reset_and_hazards.md R101, R104 to R106). -/

namespace Sys2Proof.Machine

/-! ### Reset (70_reset_and_hazards.md R101) -/

/-- Every register that STATUS shows has its reset value 0 (10_state.md R23, R33). -/
@[simp] theorem statusWord_applyReset (s : State) : statusWord (applyReset s) = 0#32 := by
  have hzero : statusWord State.reset = 0#32 := by decide
  exact hzero

theorem tick_of_rst {p : InputPins} {s : PortState} (hrst : p.rst = true) (hsame : changesOffered p s = false) :
    tick p s = .next ⟨applyReset s.regs, none, waitingWord p⟩ := by
  simp [tick, hsame, hrst]

/-- Settles O10: the step is `applyReset`, whose fields are known. -/
theorem resetLoadsResetValues : Obligations.ResetLoadsResetValues := fun s rest hinputs =>
  ⟨applyReset { s with inputs := rest }, step_of_input hinputs, rfl, rfl, rfl, rfl, rfl, rfl, rfl,
    statusWord_applyReset _, rfl, rfl, rfl⟩

/-- Settles O55: `rst` masks both channels, and the cycle leaves an idle core with the reset registers (`tick_of_rst`). -/
theorem portResetAbandonsCommand : Obligations.PortResetAbandonsCommand := by
  intro p s hrst
  refine ⟨by simp [portOutputs, hrst], by simp [portOutputs, OutputPins.outValid, hrst], fun hsame => ?_⟩
  refine ⟨_, tick_of_rst hrst hsame, rfl, rfl, rfl, statusWord_applyReset _, fun q hq => ?_⟩
  constructor
  · simp [portOutputs, hq]
  · simp [portOutputs, OutputPins.outValid, offeredByte, hq]

/-! ### A command in flight (70_reset_and_hazards.md R104, R105) -/

/-- Without reset, a cycle that finds a command in flight is a cycle of that command. -/
theorem tick_next_of_job {p : InputPins} {s t : PortState} {j : Job} (hj : s.job = some j) (hrst : p.rst = false)
    (h : tick p s = .next t) : t = runJob p s j := by
  obtain ⟨-, ⟨hreset, -⟩ | ⟨-, k, hk, ht⟩ | ⟨-, hidle, -⟩ | ⟨-, hidle, -⟩⟩ := tick_cases h
  · simp [hrst] at hreset
  · cases hj.symm.trans hk
    exact ht
  · simp [hj] at hidle
  · simp [hj] at hidle

/-- Settles O51: BUSY holds `cmd_ready` at 0, and the command in flight completes or goes on (`runJob_cases`). -/
theorem busyCoreAcceptsNoWord : Obligations.BusyCoreAcceptsNoWord := by
  intro p s t j hinv hj hrst htick
  obtain ⟨hbusy, -⟩ := hinv
  refine ⟨by simp [portOutputs, hbusy, hj], ?_⟩
  obtain rfl := tick_next_of_job hj hrst htick
  rcases runJob_cases p s j with ⟨-, -, hrun⟩ | ⟨-, hrun⟩ <;> rw [hrun]
  · exact .inr ⟨rfl, rfl⟩
  · exact .inl ⟨_, rfl, rfl, rfl⟩

/-- A cycle in which the host does not take the byte waiting only uses up latency. -/
theorem runJob_stalled {p : InputPins} (hout : p.outReady = false) (s : PortState) (wait : Nat) (b : Byte)
    (bytes : List Byte) (result : State) :
    runJob p s ⟨wait, b :: bytes, result⟩ = ⟨s.regs, some ⟨wait - 1, b :: bytes, result⟩, waitingWord p⟩ := by
  simp [runJob, advanceJob, hout]

theorem ticks_cons_next {p : InputPins} {ps : List InputPins} {s t : PortState} (h : ticks (p :: ps) s = .next t) :
    ∃ u, tick p s = .next u ∧ ticks ps u = .next t := by
  rw [ticks] at h
  split at h
  · next u hu => exact ⟨u, hu, h⟩
  · cases h
  · cases h

/-- However many cycles the host leaves the byte waiting, they only use up latency. -/
theorem ticks_stalled (ps : List InputPins) {s t : PortState} {wait : Nat} {b : Byte} {bytes : List Byte} {result : State}
    (hjob : s.job = some ⟨wait, b :: bytes, result⟩) (hps : ∀ p ∈ ps, p.rst = false ∧ p.outReady = false)
    (h : ticks ps s = .next t) : t.regs = s.regs ∧ t.job = some ⟨wait - ps.length, b :: bytes, result⟩ := by
  induction ps generalizing s wait with
  | nil =>
    cases h
    exact ⟨rfl, hjob⟩
  | cons p ps ih =>
    obtain ⟨⟨hrst, hout⟩, hps⟩ := List.forall_mem_cons.mp hps
    obtain ⟨u, hu, hrest⟩ := ticks_cons_next h
    obtain rfl := (tick_next_of_job hjob hrst hu).trans (runJob_stalled hout ..)
    obtain ⟨hregs, hleft⟩ := ih rfl hps hrest
    exact ⟨hregs, by rw [hleft, List.length_cons, Nat.sub_sub, Nat.add_comm 1]⟩

/-- Settles O52: the registers stay, by induction on the cycles (`ticks_stalled`), and BUSY was 1 with the command in flight. -/
theorem undrainedOutputHangs : Obligations.UndrainedOutputHangs := by
  intro ps s t wait b bytes result hinv hjob hps h
  obtain ⟨hbusy, -⟩ := hinv
  obtain ⟨hregs, hleft⟩ := ticks_stalled ps hjob hps h
  exact ⟨hregs, hleft, by simp [hregs, hbusy, hjob]⟩

/-! ### STATUS coherence (70_reset_and_hazards.md R106) -/

/-- Acceptance changes no bit of STATUS but BUSY, which is bit 3 (10_state.md R23). -/
theorem statusWord_busyRegs_masked (s : State) :
    statusWord (busyRegs s) &&& 0xFFFFFFF7#32 = statusWord s &&& 0xFFFFFFF7#32 := by
  refine BitVec.eq_of_getLsbD_eq fun i hi => ?_
  rw [BitVec.getLsbD_and, BitVec.getLsbD_and]
  by_cases h3 : i = 3
  · subst h3
    have hmask : (0xFFFFFFF7#32).getLsbD 3 = false := by decide
    rw [hmask, Bool.and_false, Bool.and_false]
  · simp [getLsbD_statusWord, h3]

/-- Settles O53: a cycle of the command in flight completes it or adds to the output stream only, and a cycle of an idle core
changes BUSY at most (`statusWord_busyRegs_masked`). -/
theorem statusCoherent : Obligations.StatusCoherent := by
  intro p s t _ hrst htick
  obtain ⟨-, ⟨hreset, -⟩ | ⟨-, j, hj, rfl⟩ | ⟨-, -, -, hstart⟩ | ⟨-, -, -, rfl⟩⟩ := tick_cases htick
  · simp [hrst] at hreset
  · rcases runJob_cases p s j with ⟨-, -, hrun⟩ | ⟨-, hrun⟩ <;> rw [hrun]
    · exact .inr ⟨j, hj, rfl, rfl⟩
    · exact .inl rfl
  · rcases startJob_next hstart with ⟨-, rfl⟩ | ⟨-, r, -, rfl⟩
    · exact .inl rfl
    · exact .inl (statusWord_busyRegs_masked s.regs)
  · exact .inl rfl

end Sys2Proof.Machine
end
